-- ==== Sys2Proof/Word.lean ====
section
/-! DEFINITION. The widths of WYRAND-CORE: the state word, its halves, and the two port words
(`00_scope.md` R8, R11; `30_encoding.md` R50). Every value of the block is unsigned (R11, R85). -/

namespace Sys2Proof

/-- A 64-bit value: the state register, an operand field, a result field (R20, R51, R53). -/
abbrev Word := BitVec 64

/-- A 32-bit value: a half of the state, a limb, a bound, a draw, an entropy value
(R12, R39, R78, R136). -/
abbrev Half := BitVec 32

/-- The payload `CMD[143:0]` of the command port (R50, R51). -/
abbrev CmdWord := BitVec 144

/-- The payload `RSP[135:0]` of the response port (R50, R53). -/
abbrev RspWord := BitVec 136

end Sys2Proof
end

