-- ==== Sys2Proof/Syntax.lean ====
section
/-! DEFINITION. The commands of WYRAND-CORE (`30_encoding.md` R56): names, operand formats, and the
one inductive of commands, one constructor per row of `opcode_table.json`. -/

namespace Sys2Proof

/-- The operand formats of R52: which fields of the command word carry an operand. -/
inductive Format
  /-- No operand. -/
  | z
  /-- `a`, 64 bits, in `A`. -/
  | q
  /-- `a` in `A` and `b` in `B`, 64 bits each. -/
  | qq
  /-- `a`, 32 bits, in `A[31:0]`. -/
  | w
  /-- `a` in `A[31:0]` and `b` in `B[31:0]`, 32 bits each. -/
  | ww
  /-- `n`, 8 bits, in `N`; `a` in `A[31:0]` and `b` in `B[31:0]`, 32 bits each. -/
  | nww
  deriving DecidableEq, Repr

/-- The fifteen command names, in the order of R56. -/
inductive Mnemonic
  | add64 | wmul64
  | next64 | fnext64
  | seed64 | seed32x2 | setstate | getstate | seedent
  | next32 | bool | unitdbl
  | bounded | range | choose
  deriving DecidableEq, Repr

/-- The command names as a list, in the order of R56. -/
def Mnemonic.all : List Mnemonic :=
  [.add64, .wmul64, .next64, .fnext64, .seed64, .seed32x2, .setstate, .getstate, .seedent,
   .next32, .bool, .unitdbl, .bounded, .range, .choose]

/-- A command with its operands, in the operand order of R56. The operands have the widths of their
fields (R52, R55), so every term stands for exactly one command word. -/
inductive Instr
  /-- `ADD64 a, b` (R83). -/
  | add64 (a b : Word)
  /-- `WMUL64 a, b` (R84). -/
  | wmul64 (a b : Word)
  /-- `NEXT64` (R97). -/
  | next64
  /-- `FNEXT64` (R98). -/
  | fnext64
  /-- `SEED64 seed` (R106). -/
  | seed64 (seed : Word)
  /-- `SEED32X2 lo, hi` (R107). -/
  | seed32x2 (lo hi : Half)
  /-- `SETSTATE n, lo, hi` (R108). -/
  | setstate (n : BitVec 8) (lo hi : Half)
  /-- `GETSTATE` (R110). -/
  | getstate
  /-- `SEEDENT` (R113). -/
  | seedent
  /-- `NEXT32` (R122). -/
  | next32
  /-- `BOOL` (R124). -/
  | bool
  /-- `UNITDBL` (R127). -/
  | unitdbl
  /-- `BOUNDED bound` (R144). -/
  | bounded (bound : Half)
  /-- `RANGE min, max` (R145). -/
  | range (min max : Half)
  /-- `CHOOSE length` (R146). -/
  | choose (length : Half)
  deriving DecidableEq, Repr

/-- Why a command word encodes no command, in the order of the tests of R61 and R164. -/
inductive DecodeError
  /-- `OP` is reserved (R58). -/
  | reservedOp
  /-- `OP` is defined and a bit its format reserves is 1 (R59). -/
  | reservedBit
  deriving DecidableEq, Repr

/-- A command as an assembler line gives it: a name and unbounded operand literals (R62). -/
structure SourceCmd where
  mnemonic : Mnemonic
  operands : List Nat
  deriving DecidableEq, Repr

/-- The name of a command. -/
def Instr.mnemonic : Instr → Mnemonic
  | .add64 _ _ => .add64
  | .wmul64 _ _ => .wmul64
  | .next64 => .next64
  | .fnext64 => .fnext64
  | .seed64 _ => .seed64
  | .seed32x2 _ _ => .seed32x2
  | .setstate _ _ _ => .setstate
  | .getstate => .getstate
  | .seedent => .seedent
  | .next32 => .next32
  | .bool => .bool
  | .unitdbl => .unitdbl
  | .bounded _ => .bounded
  | .range _ _ => .range
  | .choose _ => .choose

/-- A command as source: its name and its operands as numbers, in the order of R56. -/
def Instr.source (i : Instr) : SourceCmd where
  mnemonic := i.mnemonic
  operands :=
    match i with
    | .add64 a b => [a.toNat, b.toNat]
    | .wmul64 a b => [a.toNat, b.toNat]
    | .next64 => []
    | .fnext64 => []
    | .seed64 seed => [seed.toNat]
    | .seed32x2 lo hi => [lo.toNat, hi.toNat]
    | .setstate n lo hi => [n.toNat, lo.toNat, hi.toNat]
    | .getstate => []
    | .seedent => []
    | .next32 => []
    | .bool => []
    | .unitdbl => []
    | .bounded bound => [bound.toNat]
    | .range min max => [min.toNat, max.toNat]
    | .choose length => [length.toNat]

end Sys2Proof
end

