-- ==== Sys2Proof/WellFormed.lean ====
section
/-! DEFINITION. What is well formed: a command word, by the match and mask rows of
`opcode_table.json` (`30_encoding.md` R57), and an assembler line, by operand count and width (R62).
A term of `Instr` is well formed when its source is. -/

namespace Sys2Proof

/-- One row of the opcode map: a word selects it iff the word under the mask is the pattern (R57). -/
structure OpcodeRow where
  mnemonic : Mnemonic
  pattern : CmdWord
  mask : CmdWord
  deriving DecidableEq, Repr

/-- The opcode map of `opcode_table.json`, its `match` and `mask` columns (R56, R57). -/
def opcodeRows : List OpcodeRow :=
  [
   ⟨.add64, 0x010000000000000000000000000000000000#144, 0xFFFF00000000000000000000000000000000#144⟩,
   ⟨.wmul64, 0x020000000000000000000000000000000000#144, 0xFFFF00000000000000000000000000000000#144⟩,
   ⟨.next64, 0x100000000000000000000000000000000000#144, 0xFFFFFFFFFFFFFFFFFFFFFFFFFFFFFFFFFFFF#144⟩,
   ⟨.fnext64, 0x110000000000000000000000000000000000#144, 0xFFFFFFFFFFFFFFFFFFFFFFFFFFFFFFFFFFFF#144⟩,
   ⟨.seed64, 0x200000000000000000000000000000000000#144, 0xFFFFFFFFFFFFFFFFFFFF0000000000000000#144⟩,
   ⟨.seed32x2, 0x210000000000000000000000000000000000#144, 0xFFFFFFFFFFFF00000000FFFFFFFF00000000#144⟩,
   ⟨.setstate, 0x220000000000000000000000000000000000#144, 0xFF00FFFFFFFF00000000FFFFFFFF00000000#144⟩,
   ⟨.getstate, 0x230000000000000000000000000000000000#144, 0xFFFFFFFFFFFFFFFFFFFFFFFFFFFFFFFFFFFF#144⟩,
   ⟨.seedent, 0x240000000000000000000000000000000000#144, 0xFFFFFFFFFFFFFFFFFFFFFFFFFFFFFFFFFFFF#144⟩,
   ⟨.next32, 0x300000000000000000000000000000000000#144, 0xFFFFFFFFFFFFFFFFFFFFFFFFFFFFFFFFFFFF#144⟩,
   ⟨.bool, 0x310000000000000000000000000000000000#144, 0xFFFFFFFFFFFFFFFFFFFFFFFFFFFFFFFFFFFF#144⟩,
   ⟨.unitdbl, 0x320000000000000000000000000000000000#144, 0xFFFFFFFFFFFFFFFFFFFFFFFFFFFFFFFFFFFF#144⟩,
   ⟨.bounded, 0x400000000000000000000000000000000000#144, 0xFFFFFFFFFFFFFFFFFFFFFFFFFFFF00000000#144⟩,
   ⟨.range, 0x410000000000000000000000000000000000#144, 0xFFFFFFFFFFFF00000000FFFFFFFF00000000#144⟩,
   ⟨.choose, 0x420000000000000000000000000000000000#144, 0xFFFFFFFFFFFFFFFFFFFFFFFFFFFF00000000#144⟩]

/-- The word selects the row (R57). -/
def OpcodeRow.selects (r : OpcodeRow) (w : CmdWord) : Bool := w &&& r.mask == r.pattern

/-- The byte `OP` of the word is the `OP` of some row (R58). -/
def CmdWord.opDefined (w : CmdWord) : Bool :=
  opcodeRows.any fun r => w >>> 136 == r.pattern >>> 136

/-- The word selects some row: its `OP` is defined and no reserved bit is 1 (R57, R58, R59). -/
def CmdWord.wellFormed (w : CmdWord) : Bool := opcodeRows.any fun r => r.selects w

/-- The widths of a command's operands, in operand order (R52, R56). -/
def Mnemonic.operandWidths : Mnemonic → List Nat
  | .add64 | .wmul64 => [64, 64]
  | .seed64 => [64]
  | .seed32x2 | .range => [32, 32]
  | .setstate => [8, 32, 32]
  | .bounded | .choose => [32]
  | .next64 | .fnext64 | .getstate | .seedent | .next32 | .bool | .unitdbl => []

/-- The line has as many operands as its command takes (R62). -/
def SourceCmd.arityOk (c : SourceCmd) : Bool :=
  c.operands.length == c.mnemonic.operandWidths.length

/-- Every operand of the line fits its field: an assembler refuses one that does not (R62). -/
def SourceCmd.operandsFit (c : SourceCmd) : Bool :=
  (c.operands.zip c.mnemonic.operandWidths).all fun x => x.1 < 2 ^ x.2

/-- The line is a command (R62). -/
def SourceCmd.wellFormed (c : SourceCmd) : Bool := c.arityOk && c.operandsFit

/-- The command's source is well formed: its operands fit their fields (R52, R55). The field widths
are in the types of `Instr`, so this holds of every term (`Sys2Proof.Laws.instr_wellFormed`). -/
def Instr.wellFormed (i : Instr) : Bool := i.source.wellFormed

end Sys2Proof
end

