-- ==== Sys2Proof/Decode.lean ====
section
/-! DEFINITION. Decoding a command word, total on all 2^144 words (`30_encoding.md` R61), then the
encoder, the assembler's operand check (R62), and the numbering of `opcode_table.json`. -/

namespace Sys2Proof

/-! ### Fields of a command word (R51) -/

/-- `OP = CMD[143:136]`. -/
def CmdWord.op (w : CmdWord) : BitVec 8 := w.extractLsb' 136 8

/-- `N = CMD[135:128]`. -/
def CmdWord.n (w : CmdWord) : BitVec 8 := w.extractLsb' 128 8

/-- `B = CMD[127:64]`. -/
def CmdWord.b (w : CmdWord) : Word := w.extractLsb' 64 64

/-- `A = CMD[63:0]`. -/
def CmdWord.a (w : CmdWord) : Word := w.extractLsb' 0 64

/-- `B[31:0]`. -/
def CmdWord.bLow (w : CmdWord) : Half := w.extractLsb' 64 32

/-- `B[63:32]`. -/
def CmdWord.bHigh (w : CmdWord) : Half := w.extractLsb' 96 32

/-- `A[31:0]`. -/
def CmdWord.aLow (w : CmdWord) : Half := w.extractLsb' 0 32

/-- `A[63:32]`. -/
def CmdWord.aHigh (w : CmdWord) : Half := w.extractLsb' 32 32

/-- The command word of four fields: `OP * 2^136 + N * 2^128 + B * 2^64 + A` (R51). -/
def CmdWord.ofFields (op n : BitVec 8) (b a : Word) : CmdWord := op ++ n ++ b ++ a

/-! ### The opcode map (R52, R56) -/

/-- The `OP` of a command (R56). -/
def Mnemonic.opcode : Mnemonic → BitVec 8
  | .add64 => 0x01
  | .wmul64 => 0x02
  | .next64 => 0x10
  | .fnext64 => 0x11
  | .seed64 => 0x20
  | .seed32x2 => 0x21
  | .setstate => 0x22
  | .getstate => 0x23
  | .seedent => 0x24
  | .next32 => 0x30
  | .bool => 0x31
  | .unitdbl => 0x32
  | .bounded => 0x40
  | .range => 0x41
  | .choose => 0x42

/-- The operand format of a command (R56). -/
def Mnemonic.format : Mnemonic → Format
  | .add64 | .wmul64 => .qq
  | .next64 | .fnext64 | .getstate | .seedent | .next32 | .bool | .unitdbl => .z
  | .seed64 => .q
  | .seed32x2 | .range => .ww
  | .setstate => .nww
  | .bounded | .choose => .w

/-- The command an `OP` selects; none when it is reserved (R56, R58). -/
def Mnemonic.ofOpcode (op : BitVec 8) : Option Mnemonic :=
  Mnemonic.all.find? fun m => m.opcode == op

/-- Every bit that the format reserves is 0 (R52, R59). -/
def Format.reservedClear (f : Format) (w : CmdWord) : Bool :=
  match f with
  | .z => w.n == 0 && w.b == 0 && w.a == 0
  | .q => w.n == 0 && w.b == 0
  | .qq => w.n == 0
  | .w => w.n == 0 && w.b == 0 && w.aHigh == 0
  | .ww => w.n == 0 && w.bHigh == 0 && w.aHigh == 0
  | .nww => w.bHigh == 0 && w.aHigh == 0

/-- The command with its operands taken from the fields that its format names (R52, R55). -/
def Mnemonic.withOperands (m : Mnemonic) (w : CmdWord) : Instr :=
  match m with
  | .add64 => .add64 w.a w.b
  | .wmul64 => .wmul64 w.a w.b
  | .next64 => .next64
  | .fnext64 => .fnext64
  | .seed64 => .seed64 w.a
  | .seed32x2 => .seed32x2 w.aLow w.bLow
  | .setstate => .setstate w.n w.aLow w.bLow
  | .getstate => .getstate
  | .seedent => .seedent
  | .next32 => .next32
  | .bool => .bool
  | .unitdbl => .unitdbl
  | .bounded => .bounded w.aLow
  | .range => .range w.aLow w.bLow
  | .choose => .choose w.aLow

/-- The decode procedure of R61: the opcode test, then the reserved-bit test, then the operands. -/
def decode (w : CmdWord) : Except DecodeError Instr :=
  match Mnemonic.ofOpcode w.op with
  | none => .error .reservedOp
  | some m => if m.format.reservedClear w then .ok (m.withOperands w) else .error .reservedBit

/-! ### The encoder (R51, R52, R56) -/

/-- A 32-bit operand in the low half of its 64-bit field (R52, R55). -/
def lowField (x : Half) : Word := x.zeroExtend 64

/-- The word of a command: its `OP`, its operands in their fields, every reserved bit 0. -/
def encode (i : Instr) : CmdWord :=
  let op := i.mnemonic.opcode
  match i with
  | .add64 a b => .ofFields op 0 b a
  | .wmul64 a b => .ofFields op 0 b a
  | .next64 => .ofFields op 0 0 0
  | .fnext64 => .ofFields op 0 0 0
  | .seed64 seed => .ofFields op 0 0 seed
  | .seed32x2 lo hi => .ofFields op 0 (lowField hi) (lowField lo)
  | .setstate n lo hi => .ofFields op n (lowField hi) (lowField lo)
  | .getstate => .ofFields op 0 0 0
  | .seedent => .ofFields op 0 0 0
  | .next32 => .ofFields op 0 0 0
  | .bool => .ofFields op 0 0 0
  | .unitdbl => .ofFields op 0 0 0
  | .bounded bound => .ofFields op 0 0 (lowField bound)
  | .range min max => .ofFields op 0 (lowField max) (lowField min)
  | .choose length => .ofFields op 0 0 (lowField length)

/-! ### Assembling a source command (R62) -/

/-- The command of a name and operand literals; none when the count is wrong or a literal does not
fit its field, never a truncated operand (R62). -/
def SourceCmd.assemble (c : SourceCmd) : Option Instr :=
  if c.wellFormed then
    match c.mnemonic, c.operands with
    | .add64, [a, b] => some (.add64 (.ofNat 64 a) (.ofNat 64 b))
    | .wmul64, [a, b] => some (.wmul64 (.ofNat 64 a) (.ofNat 64 b))
    | .next64, [] => some .next64
    | .fnext64, [] => some .fnext64
    | .seed64, [v] => some (.seed64 (.ofNat 64 v))
    | .seed32x2, [lo, hi] => some (.seed32x2 (.ofNat 32 lo) (.ofNat 32 hi))
    | .setstate, [n, lo, hi] => some (.setstate (.ofNat 8 n) (.ofNat 32 lo) (.ofNat 32 hi))
    | .getstate, [] => some .getstate
    | .seedent, [] => some .seedent
    | .next32, [] => some .next32
    | .bool, [] => some .bool
    | .unitdbl, [] => some .unitdbl
    | .bounded, [v] => some (.bounded (.ofNat 32 v))
    | .range, [lo, hi] => some (.range (.ofNat 32 lo) (.ofNat 32 hi))
    | .choose, [v] => some (.choose (.ofNat 32 v))
    | _, _ => none
  else none

/-! ### The numbering of `opcode_table.json` -/

/-- The command word whose bits below `nbits` are those of `w` and whose other bits are 0. A command
is ONE 144-bit word with bit 0 least significant (R11, R50, R51), which is the table's numbering. -/
def tableWord (nbits w : Nat) : CmdWord := .ofNat 144 (w % 2 ^ nbits)

/-- What the decoder reads from a word numbered as the table numbers it; none where it refuses. -/
def decodeTableWord (nbits w : Nat) : Option Instr :=
  match decode (tableWord nbits w) with
  | .ok i => some i
  | .error _ => none

end Sys2Proof
end

