-- ==== Sys2Proof/Config.lean ====
section
/-! DEFINITION. The implementation parameters of `00_scope.md` R8: fixed at build time, no
architectural state, not accessible to any command (R26). Parameters the spec leaves `OPEN` are
opaque constants: nothing can be proved of them but what their types say (R9, R94, R176). -/

namespace Sys2Proof

/-- The two variants of the step function (`41_step.md` R90). -/
inductive Variant
  /-- The carry-exact step (R91). -/
  | precise
  /-- The step folded by `FASTMIX` (R93). -/
  | fast
  deriving DecidableEq, Repr

/-- The parameters the step functions read (R8). The odd constants `C1` and `C2` are held without
their bit 0, which R9 fixes at 1, so that a record is a legal choice whatever its fields are, and
every legal choice is a record. -/
structure Params where
  /-- `C1[63:1]`. -/
  c1Top : BitVec 63
  /-- `C2[63:1]`. -/
  c2Top : BitVec 63
  /-- `FASTMIX`, of the four partial products `p_ll p_lh p_hl p_hh` in this order (R94). -/
  fastMix : Word → Word → Word → Word → Word
  /-- `VARIANT32` (R121). -/
  variant32 : Variant
  /-- `VARIANTDBL` (R127). -/
  variantDbl : Variant

/-- The additive constant `C1`, odd (R8, R9). -/
def Params.c1 (p : Params) : Word := p.c1Top ++ 1#1

/-- The mixer constant `C2`, odd (R8, R9). -/
def Params.c2 (p : Params) : Word := p.c2Top ++ 1#1

/-- `C1[63:1]`, OPEN (R8, R9; log 2). -/
opaque Config.c1Top : BitVec 63

/-- `C2[63:1]`, OPEN (R8, R9; log 2). -/
opaque Config.c2Top : BitVec 63

/-- `FASTMIX`, OPEN: any total function of the four partial products (R94; log 3). -/
opaque Config.fastMix : Word → Word → Word → Word → Word

/-- `S_RESET`, OPEN, applied to the number of the reset because it may differ at each reset
(R8, R32, R176; log 1). -/
opaque Config.sReset : Nat → Word

/-- The identity string of the block, for the configuration record (R1). -/
def Config.identity : String := "WYRAND-CORE/WYTS"

/-- The optional defensive bound on rejection-loop iterations: not implemented (R8, R142). -/
def Config.iterationBound : Option Nat := none

/-- The parameters of the modelled block: `C1`, `C2`, `FASTMIX` open, `VARIANT32` and `VARIANTDBL`
as the spec decides them (R8, R120; log 4). -/
def Config.params : Params where
  c1Top := Config.c1Top
  c2Top := Config.c2Top
  fastMix := Config.fastMix
  variant32 := .precise
  variantDbl := .precise

/-! ### The reference instance (R10)

Named for concrete numbers alone: no operation, no meaning and no step reads it, and `Config.params`
is not it. A claim about a concrete output names it. -/

/-- `C1_REF` (R10). -/
def Config.c1Ref : Word := 0xA0761D6478BD642F

/-- `C2_REF` (R10). -/
def Config.c2Ref : Word := 0xE7037ED1A0B428DB

/-- `FASTMIX_REF`: the XOR of the four partial products (R10). -/
def Config.fastMixRef (ll lh hl hh : Word) : Word := ll ^^^ lh ^^^ hl ^^^ hh

/-- The reference instance of the parameters, by which the vectors marked `REF` are computed (R10). -/
def Config.reference : Params where
  c1Top := Config.c1Ref.extractLsb' 1 63
  c2Top := Config.c2Ref.extractLsb' 1 63
  fastMix := Config.fastMixRef
  variant32 := .precise
  variantDbl := .precise

end Sys2Proof
end

