-- ==== Sys2Proof/Machine/State.lean ====
section
/-! DEFINITION. The state of the machine as plain data: the register `S` (`10_state.md` R20), the
ports (`20_memory.md` R36 to R39), and the model's own bookkeeping, on which no command's result
depends (R20). What R28 calls transient is not held. -/

namespace Sys2Proof.Machine

/-- The five producible values of `RSP.STATUS` (`60_exceptions.md` R156). -/
inductive Status
  /-- The command completed. -/
  | ok
  /-- `SETSTATE` with a component count other than 2 (R157). -/
  | invalidSeedShape
  /-- `BOUNDED 0`, or `RANGE` with `max <= min` (R158). -/
  | invalidRange
  /-- `CHOOSE 0` (R159). -/
  | emptyCollection
  /-- A word that encodes no command (R160). -/
  | illegalCommand
  deriving DecidableEq, Repr

/-- A response: status, first result, second result (`30_encoding.md` R53). -/
structure Response where
  status : Status
  r0 : Word
  r1 : Word
  deriving DecidableEq, Repr

/-- What the block is doing. A command is in flight from its acceptance until the host has taken its
response (R37, R38). No command can observe this (R29, R184). -/
inductive Activity
  /-- No command is in flight. -/
  | idle
  /-- The command word `w` has been accepted and has not responded. Nothing it has computed or drawn
  so far is held (R28). -/
  | executing (w : CmdWord)
  /-- The command in flight has responded and the host has not taken the response (R38). -/
  | responding (r : Response)
  deriving DecidableEq, Repr

/-- Why the machine stops with a fault: never. A failed command is a response (R155, R163), and a
command that never completes is no fault (R14); so there is no constructor, nobody raises one, and
this is safe. -/
inductive Fault
  deriving DecidableEq, Repr

/-- Why the model refuses: an instruction that has no meaning yet. Every word of the command port has
one (R60: no encoding's behaviour is undefined). -/
inductive Refusal
  /-- Raised only by an arm of `exec` that gives its instruction no meaning (safe: the model stops).
  No arm does. -/
  | notModelled (mnemonic : String)
  deriving DecidableEq, Repr

/-- The machine. -/
structure State where
  /-- The state register, the whole architectural state (R20, R22). -/
  S : Word
  /-- The command in flight, if any (R37, R38, R45). -/
  activity : Activity
  /-- Input: the host has asserted `rst` since the last step (R36, R175; log 8). -/
  rst : Bool
  /-- Input: the host is ready to take a response (R36, R38, R183). -/
  rspReady : Bool
  /-- Input: the words the host offers, in the order it offers them (R36, R37). -/
  cmdPort : List CmdWord
  /-- Input: the stream of values the entropy source supplies, from the first that no completed
  `SEEDENT` has drawn and no reset has lost (R36, R39, R177; log 7, log 10). -/
  entPort : List Half
  /-- The model's own: the responses the host has taken, oldest first, a run's result (R190). -/
  taken : List Response
  /-- The model's own: how many resets have happened since the first, the argument of the free value
  `S_RESET` (R176; log 1). -/
  resets : Nat
  deriving DecidableEq, Repr

/-- Right after reset: idle, nothing in flight, `S` at `S_RESET` (R32, R175, R176). The ports offer
nothing and the host is ready to take responses (the host's inputs, log 7). -/
def State.reset : State where
  S := Config.sReset 0
  activity := .idle
  rst := false
  rspReady := true
  cmdPort := []
  entPort := []
  taken := []
  resets := 0

end Sys2Proof.Machine
end

