-- ==== Sys2Proof/Machine/Operands.lean ====
section
/-! DEFINITION. Operand and result forms: halves, concatenation, zero extension (`00_scope.md` R11,
R12; `20_memory.md` R40), and the response word (`30_encoding.md` R53, R54). -/

namespace Sys2Proof.Machine

/-- The low half `v[31:0]` (R12). -/
def lo32 (v : Word) : Half := v.extractLsb' 0 32

/-- The high half `v[63:32]` (R12). -/
def hi32 (v : Word) : Half := v.extractLsb' 32 32

/-- `{hi, lo}`, written low half first as every pair of the spec is (R12, R40). -/
def joinHalves (lo hi : Half) : Word := hi ++ lo

/-- `zext_64` of a 32-bit value (R11, R54). -/
def zext64 (x : Half) : Word := x.zeroExtend 64

/-- `zext_64` of a 1-bit value (R11, R54). -/
def zextBit (b : Bool) : Word := if b then 1 else 0

/-- The number of components of a state snapshot (R108, R109). -/
def snapshotComponents : BitVec 8 := 2

/-- A snapshot: the pair of 32-bit words (low, high) of `GETSTATE` and `SETSTATE` (R16, R34). -/
structure Snapshot where
  lo : Half
  hi : Half
  deriving DecidableEq, Repr

/-- The status byte (R156). -/
def Status.code : Status → BitVec 8
  | .ok => 0x00
  | .invalidSeedShape => 0x01
  | .invalidRange => 0x02
  | .emptyCollection => 0x03
  | .illegalCommand => 0xFF

/-- The status of a byte; none for the codes that are never produced, `0x04` to `0xFE` (R156). -/
def Status.ofCode (c : BitVec 8) : Option Status :=
  [Status.ok, .invalidSeedShape, .invalidRange, .emptyCollection, .illegalCommand].find?
    fun s => s.code == c

/-- The payload of the response port: `STATUS * 2^128 + R1 * 2^64 + R0` (R53). -/
def Response.word (r : Response) : RspWord := r.status.code ++ r.r1 ++ r.r0

/-- The response a payload carries; none when its status byte is never produced (R53, R156). -/
def Response.ofWord (w : RspWord) : Option Response :=
  (Status.ofCode (w.extractLsb' 128 8)).map fun s => ⟨s, w.extractLsb' 0 64, w.extractLsb' 64 64⟩

end Sys2Proof.Machine
end

