-- ==== Sys2Proof/Machine/Arith.lean ====
section
/-! DEFINITION. The arithmetic primitives of `40_arithmetic.md`: the wrapping adder, the widening
multiplier, its partial products and limb structure, and the narrow multiply. Each is computed on
unbounded naturals and narrowed at the end. -/

namespace Sys2Proof.Machine

/-- `(a + b) mod 2^64`: no carry in, no carry out, no error (R75, R76). -/
def add64 (a b : Word) : Word := .ofNat 64 (a.toNat + b.toNat)

/-- The full product as (low half, high half) (R77). There is one multiplier: the limb path and the
fast path of the source are unobservable (R80, R81). -/
def widenMul64 (a b : Word) : Word × Word :=
  let p := a.toNat * b.toNat
  (.ofNat 64 p, .ofNat 64 (p / 2 ^ 64))

/-- The exact 64-bit product of two 32-bit values (R78, R82). -/
def mul32w (x y : Half) : Word := .ofNat 64 (x.toNat * y.toNat)

/-- The four partial products of two words; the first letter is the limb of `a`, the second the limb
of `b` (R78). -/
structure Partials where
  ll : Word
  lh : Word
  hl : Word
  hh : Word
  deriving DecidableEq, Repr

/-- The four 32×32→64-bit partial products (R78). -/
def partials (a b : Word) : Partials where
  ll := mul32w (lo32 a) (lo32 b)
  lh := mul32w (lo32 a) (hi32 b)
  hl := mul32w (hi32 a) (lo32 b)
  hh := mul32w (hi32 a) (hi32 b)

/-- The middle sum of R79: `p_lh[31:0] + p_hl[31:0] + p_ll[63:32]`, not narrowed. -/
def Partials.mid (p : Partials) : Nat :=
  (lo32 p.lh).toNat + (lo32 p.hl).toNat + (hi32 p.ll).toNat

/-- The limb algorithm of R79, informative in the spec: (low half, high half). -/
def limbMul64 (a b : Word) : Word × Word :=
  let p := partials a b
  (joinHalves (lo32 p.ll) (.ofNat 32 p.mid),
   .ofNat 64 (p.hh.toNat + (hi32 p.lh).toNat + (hi32 p.hl).toNat + p.mid / 2 ^ 32))

end Sys2Proof.Machine
end

