-- ==== Sys2Proof/Machine/Generator.lean ====
section
/-! DEFINITION. The step function in its two variants (`41_step.md`), and the folding of its output
to 32 bits, one bit and a double (`43_sampling.md`). Every function takes the parameters, and takes
and returns the state explicitly (`00_scope.md` R13). -/

namespace Sys2Proof.Machine

/-- `step_precise(s) -> (s', out)`: the XOR of the two halves of the full product (R91, R92). -/
def stepPrecise (p : Params) (s : Word) : Word × Word :=
  let s' := add64 s p.c1
  let m := widenMul64 s' (s' ^^^ p.c2)
  (s', m.1 ^^^ m.2)

/-- `step_fast(s) -> (s', out)`: the same successor and operands, folded by `FASTMIX` (R93, R94). -/
def stepFast (p : Params) (s : Word) : Word × Word :=
  let s' := add64 s p.c1
  let m := partials s' (s' ^^^ p.c2)
  (s', p.fastMix m.ll m.lh m.hl m.hh)

/-- The step of a variant (R120). -/
def stepVariant (p : Params) (v : Variant) (s : Word) : Word × Word :=
  match v with
  | .precise => stepPrecise p s
  | .fast => stepFast p s

/-- `next32(s) -> (s', x)`: the low 32 bits of one step of `VARIANT32`; the high 32 bits are
discarded (R121). -/
def next32 (p : Params) (s : Word) : Word × Half :=
  let r := stepVariant p p.variant32 s
  (r.1, lo32 r.2)

/-- Bit 0 of one fast step (R124). -/
def nextBool (p : Params) (s : Word) : Word × Bool :=
  let r := stepFast p s
  (r.1, r.2.getLsbD 0)

/-- `dbl53(m)`: the binary64 pattern of `m * 2^-53`, sign 0, exponent `970 + k` for the top set bit
`k` of `m`, fraction the 52 bits below it (R128). -/
def dbl53 (m : BitVec 53) : Word :=
  if m = 0 then 0
  else
    let k := m.toNat.log2
    0#1 ++ BitVec.ofNat 11 (970 + k) ++ BitVec.ofNat 52 (m.toNat * 2 ^ (52 - k))

/-- The top 53 bits of an output word, `out[63:11]` (R126). -/
def top53 (out : Word) : BitVec 53 := out.extractLsb' 11 53

/-- The double of one step of `VARIANTDBL` (R126, R127). -/
def nextDouble (p : Params) (s : Word) : Word × Word :=
  let r := stepVariant p p.variantDbl s
  (r.1, dbl53 (top53 r.2))

end Sys2Proof.Machine
end

