-- ==== Sys2Proof/Machine/Engine.lean ====
section
/-! DEFINITION. The rejection-sampling bounded-integer engine (`44_bounded.md` R135 to R143). -/

namespace Sys2Proof.Machine

/-- The threshold `t = (2^32 − bound) mod bound` (R138). -/
def threshold (bound : Half) : Half := .ofNat 32 ((2 ^ 32 - bound.toNat) % bound.toNat)

/-- `low = m[31:0]` of the candidate product `m = x * bound` (R137). -/
def candidateLow (x bound : Half) : Half := lo32 (mul32w x bound)

/-- `high = m[63:32]` of the candidate product, the candidate result (R137). -/
def candidateHigh (x bound : Half) : Half := hi32 (mul32w x bound)

/-- The loop `while low < t` of R139 after the candidate of draw `x`, with at most `fuel` redraws:
none when all of them are rejected. -/
def redraw (p : Params) (bound t : Half) : Nat → Word → Half → Option (Word × Half)
  | 0, s, x => if candidateLow x bound < t then none else some (s, candidateHigh x bound)
  | fuel + 1, s, x =>
    if candidateLow x bound < t then
      let d := next32 p s
      redraw p bound t fuel d.1 d.2
    else some (s, candidateHigh x bound)

/-- The number of redraws after which the states of the draws have repeated: the first draw and
`2^64 − 1` redraws are all there are (R96, R143). No iteration bound of the block (R142). -/
def maxRedraws : Nat := 2 ^ 64 - 1

/-- `bounded(s, bound) -> (s', r)` as R139 writes it; none exactly when the loop never accepts
(R143). -/
def bounded (p : Params) (s : Word) (bound : Half) : Option (Word × Half) :=
  let d := next32 p s
  if candidateLow d.2 bound < bound then
    redraw p bound (threshold bound) maxRedraws d.1 d.2
  else some (d.1, candidateHigh d.2 bound)

end Sys2Proof.Machine
end

