-- ==== Sys2Proof/Machine/Ops.lean ====
section
/-! DEFINITION. The named operations over the state: writing `S`, responding, raising a condition
(the block's exception entry) and the return from it, the entropy port, reset, the host's acts
between steps, and what the block turns to next. -/

namespace Sys2Proof.Machine

/-! ### The register `S` (R13, R21, R43) -/

/-- `S <- v`, all 64 bits at once (R13, R43). -/
def State.withS (s : State) (v : Word) : State := { s with S := v }

/-- `S_LO = S[31:0]` (R21). -/
def State.sLo (s : State) : Half := lo32 s.S

/-- `S_HI = S[63:32]` (R21). -/
def State.sHi (s : State) : Half := hi32 s.S

/-! ### Completing a command (R13, R53, R163) -/

/-- `respond(status, r0, r1)`: the one response of the command in flight, held until the host takes
it (R13, R38). -/
def State.respond (s : State) (status : Status) (r0 r1 : Word) : State :=
  { s with activity := .responding ⟨status, r0, r1⟩ }

/-- Taking an exception. `raise <Condition>`: the command ends with `R0 = R1 = 0`; `S` and the entropy
port are as they were when it was accepted, and nothing is saved or latched (R13, R161 to R163). -/
def State.raise (s : State) (condition : Status) : State := s.respond condition 0 0

/-- Returning from an exception, and from every other completion: the host takes the response and the
block is idle again; there is no return command (R38, R163). -/
def State.takeResponse (s : State) (r : Response) : State :=
  { s with activity := .idle, taken := s.taken ++ [r] }

/-- A response is taken by a ready host; until the host is ready it is held, and there is no step
(R36, R38, R183). -/
def State.offerResponse (s : State) (r : Response) : Option State :=
  if s.rspReady then some (s.takeResponse r) else none

/-! ### Accepting a command (R37) -/

/-- The offered word `w` is accepted and leaves the port, `rest` stays offered (R37). -/
def State.accept (s : State) (w : CmdWord) (rest : List CmdWord) : State :=
  { s with activity := .executing w, cmdPort := rest }

/-! ### The entropy port (R39, R113, R114) -/

/-- What is left on the entropy port when `SEEDENT` has taken its two values. -/
def State.withEntropy (s : State) (rest : List Half) : State := { s with entPort := rest }

/-- `S <- { e1, e0 }`: two draws, the first value low, which consume what they take (R43, R113). The
halves exist only within this operation (R28). Without two values, wait: `S` keeps its value, there is
no response and no time-out (R114); this is then the state itself, which has no step of the block
(`State.drawUnanswered`; log 10). -/
def State.seedFromEntropy (s : State) : State :=
  match s.entPort with
  | e0 :: e1 :: rest => ((s.withEntropy rest).withS (joinHalves e0 e1)).respond .ok 0 0
  | _ => s

/-- A `SEEDENT` has been accepted and has not responded (R39, R113). -/
def State.seedentInFlight (s : State) : Bool :=
  match s.activity with
  | .executing w =>
    match decode w with
    | .ok i => i == .seedent
    | .error _ => false
  | _ => false

/-- `ready` of the entropy port: a `SEEDENT` is executing (R39, R175). -/
def State.entReady (s : State) : Bool := !s.rst && s.seedentInFlight

/-- A `SEEDENT` is in flight and one of its two draws is not answered: fewer than two values are on the
entropy port (R114). -/
def State.drawUnanswered (s : State) : Bool :=
  s.seedentInFlight && decide (s.entPort.length < 2)

/-! ### The bounded engine on the machine (R139, R143, R144) -/

/-- Run the engine on `S` and respond with a function of its result; a loop that never accepts gives
no value and no response: the command stays in flight, an infinite run (R14, R143). -/
def State.sampleBounded (s : State) (bound : Half) (result : Half → Half) : State :=
  match bounded Config.params s.S bound with
  | some (s', r) => (s.withS s').respond .ok (zext64 (result r)) 0
  | none => s

/-! ### Reset (R175 to R177) -/

/-- The reset event: idle, `S` an unspecified value, the command in flight abandoned, its response
lost, `rst` released (R175, R176, R177; log 8). While `rst` is asserted no entropy is taken, so the
port keeps what it has: what an unfinished `SEEDENT` had taken is lost when `rst` is asserted
(`State.assertRst`). -/
def State.applyReset (s : State) : State :=
  { s with
    S := Config.sReset (s.resets + 1)
    activity := .idle
    rst := false
    resets := s.resets + 1 }

/-! ### What the host and the entropy source may do between two steps (R189) -/

/-- The host offers one more command word (R37). -/
def State.offer (s : State) (w : CmdWord) : State := { s with cmdPort := s.cmdPort ++ [w] }

/-- The entropy source delivers one more value (R39). -/
def State.deliver (s : State) (e : Half) : State := { s with entPort := s.entPort ++ [e] }

/-- What is left on the entropy port when the block stops taking from it: while `ready` is 1 each of the
two draws of the `SEEDENT` in flight has taken its value as soon as it was there (R36, R39, R113). -/
def State.untakenEntropy (s : State) : List Half :=
  if s.entReady then s.entPort.drop 2 else s.entPort

/-- The host asserts `rst` (R175): the values an unfinished `SEEDENT` has already taken are lost, and
from here on none is taken (R175, R177; log 10). Asserting it again changes nothing. -/
def State.assertRst (s : State) : State := { s with rst := true, entPort := s.untakenEntropy }

/-- The host becomes ready, or not, to take a response (R36, R38). -/
def State.setReady (s : State) (ready : Bool) : State := { s with rspReady := ready }

/-! ### The signals the block drives (R36 to R39) -/

/-- `ready` of the command port: no reset, no command in flight (R37, R175). -/
def State.cmdReady (s : State) : Bool := !s.rst && s.activity == .idle

/-- The payload of the response port while its `valid` is 1 (R38, R53, R175). -/
def State.rspOffered (s : State) : Option RspWord :=
  if s.rst then none
  else
    match s.activity with
    | .responding r => some r.word
    | _ => none

/-! ### What the block turns to next -/

/-- What the block is about to do. -/
inductive Phase
  /-- `rst` is asserted (R175). -/
  | resetting
  /-- A response waits to be taken (R38). -/
  | responding (r : Response)
  /-- The word in flight, or one just accepted, executes on the given state (R37, R45). -/
  | executing (w : CmdWord) (s : State)
  /-- A `SEEDENT` in flight with an unanswered draw: stuck, not faulted and not finished (R114). -/
  | stuck
  /-- Nothing in flight and nothing offered (R37, R171). -/
  | quiet

/-- Reset first; then the command in flight; only then the next word of the port (R45, R175). -/
def State.phase (s : State) : Phase :=
  if s.rst then .resetting
  else
    match s.activity with
    | .responding r => .responding r
    | .executing w => if s.drawUnanswered then .stuck else .executing w s
    | .idle =>
      match s.cmdPort with
      | [] => .quiet
      | w :: rest => .executing w (s.accept w rest)

end Sys2Proof.Machine
end

