-- ==== Sys2Proof/Machine/Arithmetic.lean ====
section
/-! DEFINITION. The meanings of the arithmetic commands (`40_arithmetic.md` R83, R84): they neither
read nor write `S` and have no condition of their own. -/

namespace Sys2Proof.Machine

/-- `ADD64 a, b` (R83). -/
def execAdd64 (a b : Word) (s : State) : Host.Outcome State Fault Refusal :=
  .next (s.respond .ok (add64 a b) 0)

/-- `WMUL64 a, b`: low half in `R0`, high half in `R1` (R84). -/
def execWmul64 (a b : Word) (s : State) : Host.Outcome State Fault Refusal :=
  let m := widenMul64 a b
  .next (s.respond .ok m.1 m.2)

end Sys2Proof.Machine
end

