-- ==== Sys2Proof/Machine/BoundedSampling.lean ====
section
/-! DEFINITION. The meanings of the bounded-sampling commands (`44_bounded.md` R144 to R148). The
operand test comes before the first draw (R148). -/

namespace Sys2Proof.Machine

/-- `BOUNDED bound` (R144, R147). -/
def execBounded (bound : Half) (s : State) : Host.Outcome State Fault Refusal :=
  .next (if bound = 0 then s.raise .invalidRange else s.sampleBounded bound id)

/-- `RANGE min, max`: `min` plus a value below `max − min`, unsigned (R145). -/
def execRange (min max : Half) (s : State) : Host.Outcome State Fault Refusal :=
  .next
    (if max ≤ min then s.raise .invalidRange else s.sampleBounded (max - min) fun r => min + r)

/-- `CHOOSE length`: an index below `length` (R146). -/
def execChoose (length : Half) (s : State) : Host.Outcome State Fault Refusal :=
  .next (if length = 0 then s.raise .emptyCollection else s.sampleBounded length id)

end Sys2Proof.Machine
end

