-- ==== Sys2Proof/Machine/Sampling.lean ====
section
/-! DEFINITION. The meanings of the fixed-draw sampling commands (`43_sampling.md`): one step each. -/

namespace Sys2Proof.Machine

/-- `NEXT32` (R122). -/
def execNext32 (s : State) : Host.Outcome State Fault Refusal :=
  let r := next32 Config.params s.S
  .next ((s.withS r.1).respond .ok (zext64 r.2) 0)

/-- `BOOL`: 1 for true, always the fast variant (R124). -/
def execBool (s : State) : Host.Outcome State Fault Refusal :=
  let r := nextBool Config.params s.S
  .next ((s.withS r.1).respond .ok (zextBit r.2) 0)

/-- `UNITDBL` (R127). -/
def execUnitdbl (s : State) : Host.Outcome State Fault Refusal :=
  let r := nextDouble Config.params s.S
  .next ((s.withS r.1).respond .ok r.2 0)

end Sys2Proof.Machine
end

