-- ==== Sys2Proof/Machine/Seeding.lean ====
section
/-! DEFINITION. The meanings of the seeding and state-access commands (`42_seed_state.md`). Seeds are
stored raw: no scrambling, no step (R112). -/

namespace Sys2Proof.Machine

/-- `SEED64 seed`: every 64-bit value is a legal seed (R106). -/
def execSeed64 (seed : Word) (s : State) : Host.Outcome State Fault Refusal :=
  .next ((s.withS seed).respond .ok 0 0)

/-- `SEED32X2 lo, hi`, low half first (R107). -/
def execSeed32x2 (lo hi : Half) (s : State) : Host.Outcome State Fault Refusal :=
  .next ((s.withS (joinHalves lo hi)).respond .ok 0 0)

/-- `SETSTATE n, lo, hi`: restores a snapshot of exactly two components, else raises
`InvalidSeedShape` (R108, R109). -/
def execSetstate (n : BitVec 8) (lo hi : Half) (s : State) : Host.Outcome State Fault Refusal :=
  .next
    (if n = snapshotComponents then (s.withS (joinHalves lo hi)).respond .ok 0 0
     else s.raise .invalidSeedShape)

/-- `GETSTATE`: the halves of `S`, low in `R0`; no step (R110). -/
def execGetstate (s : State) : Host.Outcome State Fault Refusal :=
  .next (s.respond .ok (zext64 s.sLo) (zext64 s.sHi))

/-- `SEEDENT`: seeds from two entropy values, or waits; a draw that is not answered changes nothing, and
the block then has no step (`blockStep`; R113, R114). -/
def execSeedent (s : State) : Host.Outcome State Fault Refusal :=
  .next s.seedFromEntropy

end Sys2Proof.Machine
end

