-- ==== Sys2Proof/Machine/Stepping.lean ====
section
/-! DEFINITION. The meanings of the raw step commands (`41_step.md` R97, R98). -/

namespace Sys2Proof.Machine

/-- `NEXT64`: one precise step (R97). -/
def execNext64 (s : State) : Host.Outcome State Fault Refusal :=
  let r := stepPrecise Config.params s.S
  .next ((s.withS r.1).respond .ok r.2 0)

/-- `FNEXT64`: one fast step (R98). -/
def execFnext64 (s : State) : Host.Outcome State Fault Refusal :=
  let r := stepFast Config.params s.S
  .next ((s.withS r.1).respond .ok r.2 0)

end Sys2Proof.Machine
end

