-- ==== Sys2Proof/Machine/Dispatch.lean ====
section
/-! DEFINITION. One arm per command of `30_encoding.md` R56. -/

namespace Sys2Proof.Machine

def exec (i : Instr) (s : State) : Host.Outcome State Fault Refusal :=
  match i with
  | .add64 a b => Sys2Proof.Machine.execAdd64 a b s
  | .wmul64 a b => Sys2Proof.Machine.execWmul64 a b s
  | .next64 => Sys2Proof.Machine.execNext64 s
  | .fnext64 => Sys2Proof.Machine.execFnext64 s
  | .seed64 seed => Sys2Proof.Machine.execSeed64 seed s
  | .seed32x2 lo hi => Sys2Proof.Machine.execSeed32x2 lo hi s
  | .setstate n lo hi => Sys2Proof.Machine.execSetstate n lo hi s
  | .getstate => Sys2Proof.Machine.execGetstate s
  | .seedent => Sys2Proof.Machine.execSeedent s
  | .next32 => Sys2Proof.Machine.execNext32 s
  | .bool => Sys2Proof.Machine.execBool s
  | .unitdbl => Sys2Proof.Machine.execUnitdbl s
  | .bounded bound => Sys2Proof.Machine.execBounded bound s
  | .range min max => Sys2Proof.Machine.execRange min max s
  | .choose length => Sys2Proof.Machine.execChoose length s

end Sys2Proof.Machine
end

