-- ==== Sys2Proof/Machine/Step.lean ====
section
/-! DEFINITION. The step of the block, where it has one, the step of the machine, and where it finds its
next command. -/

namespace Sys2Proof.Machine

/-- The command word `w` executes: the meaning of the command it encodes, or `IllegalCommand`
(`30_encoding.md` R60, R61). -/
def execWord (w : CmdWord) (s : State) : Host.Outcome State Fault Refusal :=
  match decode w with
  | .ok i => exec i s
  | .error _ => .next (s.raise .illegalCommand)

/-- The block's own step: a reset, a response taken, or one command executed. None where the block has
no step until the host or the entropy source acts: a `SEEDENT` with an unanswered draw is stuck
(`42_seed_state.md` R114, `70_reset_and_hazards.md` R188), a response is held (`20_memory.md` R38), or
nothing is offered. A rejection loop that never accepts does have a step, again and again: an infinite
run (`44_bounded.md` R143). -/
def blockStep (s : State) : Option (Host.Outcome State Fault Refusal) :=
  match s.phase with
  | .resetting => some (.next s.applyReset)
  | .responding r => (s.offerResponse r).map .next
  | .executing w s' => some (execWord w s')
  | .stuck => none
  | .quiet => none

/-- One step of the machine: the block's step; where the block has none, nothing happens and the state
stays as it is, for the host's interface asks for an outcome in every state (log 5, log 11). -/
def step (s : State) : Host.Outcome State Fault Refusal :=
  (blockStep s).getD (.next s)

/-- The state in which the very next step accepts and executes the given word: no reset, nothing in
flight, the word at the head of the command port (log 9). -/
def State.withFetchWord (s : State) (nbits w : Nat) : State :=
  { s with rst := false, activity := .idle, cmdPort := tableWord nbits w :: s.cmdPort }

end Sys2Proof.Machine
end

