-- ==== Sys2Proof/Machine/Pseudo.lean ====
section
/-! DEFINITION. The host's side: issuing one command and taking its response, a list of commands, and
the pseudo-instructions of `30_encoding.md` R63 and `44_bounded.md` R146, R150, which are host
procedures over real commands. The collections are the host's (`00_scope.md` R6). -/

namespace Sys2Proof.Machine

/-- The host sends one command to an idle block and takes the response; none when the command does
not complete (R14, R45; log 13). -/
def issue (i : Instr) (s : State) : Option (Response × State) :=
  match exec i (s.accept (encode i) s.cmdPort) with
  | .next t =>
    match t.activity with
    | .responding r => some (r, t.takeResponse r)
    | _ => none
  | _ => none

/-- A list of commands, each sent when the response of the one before has been taken: the responses
in order, and the last state (R45, R190). -/
def issueAll : List Instr → State → Option (List Response × State)
  | [], s => some ([], s)
  | i :: is, s =>
    match issue i s with
    | none => none
    | some (r, t) => (issueAll is t).map fun x => (r :: x.1, x.2)

/-! ### Pseudo-instructions (R63) -/

/-- The snapshot a `GETSTATE` response carries: (`R0[31:0]`, `R1[31:0]`) (R63, R111). -/
def Response.snapshot (r : Response) : Snapshot := ⟨lo32 r.r0, lo32 r.r1⟩

/-- `RESTORE lo, hi`: `SETSTATE 2, lo, hi` (R63). -/
def restore (p : Snapshot) : Instr := .setstate snapshotComponents p.lo p.hi

/-- `SAVE`: `GETSTATE`, and the host keeps the snapshot (R63). -/
def save (s : State) : Option (Snapshot × State) :=
  (issue .getstate s).map fun x => (x.1.snapshot, x.2)

/-- `NEXT64PAIR`: `NEXT64`, and the host takes (`R0[31:0]`, `R0[63:32]`) (R40, R63). -/
def next64Pair (s : State) : Option ((Half × Half) × State) :=
  (issue .next64 s).map fun x => ((lo32 x.1.r0, hi32 x.1.r0), x.2)

/-- The longest collection the host may name: its length is a 32-bit operand (R146, R150). -/
def maxCollection : Nat := 2 ^ 32 - 1

/-- `CHOOSEONE c`: `CHOOSE length(c)`; the element at the index, or the condition the host reports.
None when `CHOOSE` never completes or the length is no operand (R63, R146). -/
def chooseOne {α : Type} (items : List α) (s : State) : Option (Except Status α × State) :=
  if items.length ≤ maxCollection then
    match issue (.choose (.ofNat 32 items.length)) s with
    | none => none
    | some (r, t) =>
      match r.status with
      | .ok => items[r.r0.toNat]?.map fun x => (.ok x, t)
      | e => some (.error e, t)
  else none

/-- Swap two positions of a collection; a position outside it changes nothing. -/
def swapAt {α : Type} (d : List α) (i j : Nat) : List α :=
  match d[i]?, d[j]? with
  | some x, some y => (d.set i y).set j x
  | _, _ => d

/-- The loop of `SHUFFLE` with `k` iterations to go: `BOUNDED k`, then swap position `length − k`
with the one `R0` places on (R150). -/
def shuffleFrom {α : Type} : Nat → List α → State → Option (List α × State)
  | 0, d, s => some (d, s)
  | k + 1, d, s =>
    match issue (.bounded (.ofNat 32 (k + 1))) s with
    | none => none
    | some (r, t) =>
      let i := d.length - (k + 1)
      shuffleFrom k (swapAt d i (i + r.r0.toNat)) t

/-- `SHUFFLE c`: Fisher–Yates on a copy; the input is a value and stays as it is. None when a
`BOUNDED` never completes or the length is no operand (R150). -/
def shuffle {α : Type} (items : List α) (s : State) : Option (List α × State) :=
  if items.length ≤ maxCollection then shuffleFrom items.length items s else none

end Sys2Proof.Machine
end

