-- ==== Sys2Proof/Safety.lean ====
section
/-! DEFINITION. The vocabulary of claims: which responses and states are good, which draws a bounded
command makes, what an offered word is answered with. -/

namespace Sys2Proof.Machine

/-! ### Responses and states -/

/-- A response that reports a condition carries no result (`30_encoding.md` R53). -/
def Response.Good (r : Response) : Prop := r.status ≠ .ok → r.r0 = 0 ∧ r.r1 = 0

/-- The commands that can be in flight without having responded: those that R172 says may never
complete, with operands that pass their operand test. -/
def Instr.mayWait : Instr → Prop
  | .seedent => True
  | .bounded bound => bound ≠ 0
  | .range min max => min < max
  | .choose length => length ≠ 0
  | _ => False

/-- The invariant of the machine between steps: a waiting command is one that may wait, and every
response, waiting or taken, carries results only with `OK`. That a waiting command is in flight between
steps is the form of log 5, and the list of taken responses is log 12. -/
structure State.Inv (s : State) : Prop where
  waiting : ∀ w, s.activity = .executing w → ∃ i, decode w = .ok i ∧ Instr.mayWait i
  pending : ∀ r, s.activity = .responding r → r.Good
  taken : ∀ r ∈ s.taken, r.Good

/-- The block is idle and the host has asserted no reset (R175). -/
def State.Idle (s : State) : Prop := s.activity = .idle ∧ s.rst = false

/-- The host offers `w` to an idle block, and `rest` after it (R37). -/
def State.Offers (s : State) (w : CmdWord) (rest : List CmdWord) : Prop :=
  s.Idle ∧ s.cmdPort = w :: rest

/-- The state after an offered word has been accepted and answered with `r`, with `v` in `S`. -/
def State.answered (s : State) (rest : List CmdWord) (v : Word) (r : Response) : State :=
  { s with S := v, cmdPort := rest, activity := .responding r }

/-- The response of a command that completed with results `r0`, `r1`. -/
def okResponse (r0 r1 : Word) : Response := ⟨.ok, r0, r1⟩

/-- The response of a condition: no results (R53). -/
def conditionResponse (c : Status) : Response := ⟨c, 0, 0⟩

/-! ### The sequence of states and draws (R96, R139, R140) -/

/-- The state after `k` steps from `s`, of either variant: `(s + k * C1) mod 2^64` (R96). -/
def stateAfter (p : Params) (s : Word) (k : Nat) : Word := .ofNat 64 (s.toNat + k * p.c1.toNat)

/-- The draw made after `k` earlier ones from `s`, counted from 0. -/
def drawAt (p : Params) (s : Word) (k : Nat) : Half := (next32 p (stateAfter p s k)).2

/-- The draw `x` is accepted for `bound`: `low ≥ t` (R140). -/
abbrev Accepts (bound x : Half) : Prop := threshold bound ≤ candidateLow x bound

/-- Draw `k` is the first accepted one from `s` (R140, R143). -/
def FirstAccepted (p : Params) (s : Word) (bound : Half) (k : Nat) : Prop :=
  Accepts bound (drawAt p s k) ∧ ∀ j < k, ¬ Accepts bound (drawAt p s j)

/-- No draw from `s` is ever accepted (R143). -/
def NeverAccepts (p : Params) (s : Word) (bound : Half) : Prop :=
  ∀ k, ¬ Accepts bound (drawAt p s k)

/-- The result of the engine when draw `k` is the accepted one: `high` of its product (R139). -/
def resultAt (p : Params) (s : Word) (bound : Half) (k : Nat) : Half :=
  candidateHigh (drawAt p s k) bound

/-- `m * 2^-53` is the value of the binary64 pattern: sign 0, a normal number of exponent `E` and
fraction `F` with `(2^52 + F) * 2^(E − 1075) = m * 2^-53`, or both zero (`43_sampling.md` R128). -/
def IsDouble53 (bits : Word) (m : Nat) : Prop :=
  (m = 0 ∧ bits = 0) ∨
    (0 < m ∧ bits.getLsbD 63 = false ∧
      1 ≤ (bits.extractLsb' 52 11).toNat ∧ (bits.extractLsb' 52 11).toNat ≤ 2046 ∧
      (2 ^ 52 + (bits.extractLsb' 0 52).toNat) * 2 ^ (bits.extractLsb' 52 11).toNat
        = m * 2 ^ 1022)

/-- The states after a list of steps, each of a variant of the host's choice (R96). -/
def mixedSteps (p : Params) : List Variant → Word → Word
  | [], s => s
  | v :: vs, s => mixedSteps p vs (stepVariant p v s).1

/-! ### Shuffles (R150) -/

/-- The commands that a shuffle of `L` elements issues: `BOUNDED L`, then `L − 1`, down to `1`
(R150). -/
def shuffleCommands : Nat → List Instr
  | 0 => []
  | k + 1 => .bounded (.ofNat 32 (k + 1)) :: shuffleCommands k

/-- Swap position `i` with the one the first offset places on, position `i + 1` with the one the
second offset places on, and so forth (R150). -/
def swapEach {α : Type} : Nat → List α → List Nat → List α
  | _, d, [] => d
  | i, d, r :: rs => swapEach (i + 1) (swapAt d i (i + r)) rs

/-- From `s` the commands `BOUNDED L` down to `BOUNDED 1` reject `k` draws each, `k` from the list in
order, accept the next one, and leave `s'` (R139, R150). -/
def ShuffleDraws (p : Params) : Nat → Word → List Nat → Word → Prop
  | 0, s, [], s' => s' = s
  | L + 1, s, k :: ks, s' =>
    FirstAccepted p s (.ofNat 32 (L + 1)) k ∧ ShuffleDraws p L (stateAfter p s (k + 1)) ks s'
  | 0, _, _ :: _, _ => False
  | _ + 1, _, [], _ => False

end Sys2Proof.Machine
end

