-- ==== Sys2Proof/Certificates/Slice0/Obligations.lean ====
section
/-! DEFINITION. The statements for the provers. -/

open Sys2Proof Sys2Proof.Machine

/-- Decoding the encoding of any command gives the command back. From 30_encoding.md sections 1 to 3
(command word, formats, opcode map). -/
def Obligations.DecodeEncodeRoundTrip : Prop :=
    ∀ i : Instr, i.wellFormed = true ∧ decode (encode i) = .ok i

/-- A command word that decodes is the encoding of what it decodes to. From 30_encoding.md sections
1 to 4 (fields, reserved bits, decode procedure). -/
def Obligations.EncodeDecodeRoundTrip : Prop :=
    ∀ (w : CmdWord) (i : Instr), decode w = .ok i → encode i = w

/-- The decoder accepts exactly the words that select a row of the opcode map, and reads that row's
command. From R57 (30_encoding.md, match and mask), 30_encoding.md section 3 (opcode map). -/
def Obligations.DecodeAgreesWithOpcodeMap : Prop :=
    (∀ w : CmdWord, (∃ i, decode w = .ok i) ↔ ∃ r ∈ opcodeRows, w &&& r.mask = r.pattern) ∧
    (∀ (w : CmdWord) (i : Instr) (r : OpcodeRow), decode w = .ok i → r ∈ opcodeRows →
      w &&& r.mask = r.pattern → i.mnemonic = r.mnemonic) ∧
    ∀ (w : CmdWord) (r q : OpcodeRow), r ∈ opcodeRows → q ∈ opcodeRows →
      w &&& r.mask = r.pattern → w &&& q.mask = q.pattern → r = q

/-- A reserved opcode is reported before a reserved bit, and each exactly when the spec says. From
30_encoding.md section 4 (reserved opcodes, reserved bits, decode procedure), 60_exceptions.md
section 3 (priority). -/
def Obligations.DecodeErrorOrder : Prop :=
    (∀ w : CmdWord, decode w = .error .reservedOp ↔ w.opDefined = false) ∧
    ∀ w : CmdWord, decode w = .error .reservedBit ↔ w.opDefined = true ∧ w.wellFormed = false

/-- A few words written out from the encoding tables decode to the commands they stand for. From
30_encoding.md sections 1, 3 and 4, 95_test_vectors.md section 2.7. -/
def Obligations.SampleWordsDecode : Prop :=
    decode 0x0200FFFFFFFFFFFFFFFFFFFFFFFFFFFFFFFE#144
        = .ok (.wmul64 0xFFFFFFFFFFFFFFFE#64 0xFFFFFFFFFFFFFFFF#64) ∧
    decode 0x110000000000000000000000000000000000#144 = .ok .fnext64 ∧
    decode 0x22020000000027DB6085000000008AF1BAA7#144
        = .ok (.setstate 2#8 0x8AF1BAA7#32 0x27DB6085#32) ∧
    decode 0x320000000000000000000000000000000000#144 = .ok .unitdbl ∧
    decode 0x4100000000000000000F0000000000000005#144 = .ok (.range 5#32 15#32) ∧
    decode 0x000000000000000000000000000000000000#144 = .error .reservedOp ∧
    decode 0x100000000000000000000000000000000001#144 = .error .reservedBit

/-- The command word as a number, and its four fields. From 30_encoding.md section 1 (command word). -/
def Obligations.CommandWordFields : Prop :=
    (∀ (op n : BitVec 8) (b a : Word),
      (CmdWord.ofFields op n b a).toNat
          = op.toNat * 2 ^ 136 + n.toNat * 2 ^ 128 + b.toNat * 2 ^ 64 + a.toNat ∧
        (CmdWord.ofFields op n b a).op = op ∧ (CmdWord.ofFields op n b a).n = n ∧
        (CmdWord.ofFields op n b a).b = b ∧ (CmdWord.ofFields op n b a).a = a) ∧
    ∀ w : CmdWord, CmdWord.ofFields w.op w.n w.b w.a = w

/-- The status codes, the response word as a number, and reading it back. From 30_encoding.md
section 1 (response word), 60_exceptions.md section 1 (status codes). -/
def Obligations.ResponseWordRoundTrip : Prop :=
    (∀ r : Response, r.word.toNat
        = r.status.code.toNat * 2 ^ 128 + r.r1.toNat * 2 ^ 64 + r.r0.toNat ∧
      Response.ofWord r.word = some r) ∧
    (∀ (w : RspWord) (r : Response), Response.ofWord w = some r → r.word = w) ∧
    (Status.ok.code = 0x00#8 ∧ Status.invalidSeedShape.code = 0x01#8 ∧
      Status.invalidRange.code = 0x02#8 ∧ Status.emptyCollection.code = 0x03#8 ∧
      Status.illegalCommand.code = 0xFF#8) ∧
    ∀ w : RspWord, Response.ofWord w = none ↔
      0x04 ≤ w.toNat / 2 ^ 128 ∧ w.toNat / 2 ^ 128 ≤ 0xFE

/-- An assembled command has exactly the operands of its source. From 30_encoding.md section 5
(assembler syntax). -/
def Obligations.AssemblerNeverTruncates : Prop :=
    (∀ (src : SourceCmd) (i : Instr), src.assemble = some i → i.source = src) ∧
    ∀ i : Instr, i.source.assemble = some i

/-- A step executes the command that the offered word, or the word in flight, encodes. From
20_memory.md section 3 (ordering), 30_encoding.md section 4 (decode procedure),
notes/assumptions/5.md, notes/assumptions/11.md. What one step is, and that acceptance and
execution are one step, is the model's choice (log 11). For a SEEDENT in flight with an
unanswered draw both sides are the state itself: by the spec it has no step, the block has none
(blockStep), and that the machine's step answers the state unchanged is the model's form (log
5). -/
def Obligations.StepRunsDecodedCommand : Prop :=
    (∀ (s : State) (w : CmdWord) (rest : List CmdWord) (i : Instr),
      s.Offers w rest → decode w = .ok i → step s = exec i (s.accept w rest)) ∧
    ∀ (s : State) (w : CmdWord) (i : Instr),
      s.rst = false → s.activity = .executing w → decode w = .ok i → step s = exec i s

/-- A word that selects no row of the opcode map is answered IllegalCommand and changes nothing
else. From 30_encoding.md section 4 (illegal command), 60_exceptions.md section 1
(IllegalCommand). -/
def Obligations.IllegalCommandAnswered : Prop :=
    ∀ (s : State) (w : CmdWord) (rest : List CmdWord), s.Offers w rest → w.wellFormed = false →
      step s = .next (s.answered rest s.S (conditionResponse .illegalCommand))

/-- The machine never faults and never refuses, and nothing happens exactly where the block has no
step. From 00_scope.md section 4 (outcomes of a command), 30_encoding.md section 4 (the decoder
is total), 42_seed_state.md section 3 (SEEDENT waits without limit), 70_reset_and_hazards.md
section 5 (agents), notes/assumptions/5.md, notes/assumptions/11.md. That the machine's step
answers the state itself where the block has no step is the model's form (log 5, log 11), for
the host's interface asks for an outcome in every state: by the spec a SEEDENT with an
unanswered draw has no step. -/
def Obligations.StepNeverStops : Prop :=
    (∀ s : State, ∃ t, step s = .next t) ∧
    (∀ (s : State) (o : Host.Outcome State Fault Refusal), blockStep s = some o → step s = o) ∧
    (∀ s : State, blockStep s = none → step s = .next s) ∧
    ∀ s : State, blockStep s = none ↔ s.rst = false ∧
      (((∃ r, s.activity = .responding r) ∧ s.rspReady = false) ∨
        (s.activity = .idle ∧ s.cmdPort = []) ∨
        ∃ w, s.activity = .executing w ∧ decode w = .ok .seedent ∧ s.entPort.length < 2)

/-- A response is held until the host is ready, then taken once, and nothing is accepted meanwhile.
From 20_memory.md section 1 (response port), 70_reset_and_hazards.md section 3 (take the
response), notes/assumptions/11.md, notes/assumptions/12.md. That the machine's step answers the
state itself while the response is held, where the block has no step, and that taking a response
is a step of its own, is the model's form (log 11). The list of responses taken, to which the
response is appended, is the model's own field (log 12). -/
def Obligations.ResponseHeldUntilTaken : Prop :=
    ∀ (s : State) (r : Response), s.rst = false → s.activity = .responding r →
      step s = .next (if s.rspReady then { s with activity := .idle, taken := s.taken ++ [r] } else s)

/-- An idle block that is offered nothing keeps its whole state. From 20_memory.md section 1
(command port, response port), 60_exceptions.md section 5 (power states),
notes/assumptions/11.md. That such a block takes a step at all, which does nothing, is the
model's form (log 11). -/
def Obligations.IdleBlockKeepsState : Prop :=
    ∀ s : State, s.Idle → s.cmdPort = [] → step s = .next s

/-- A command is accepted only when none is in flight, and then exactly the first one offered. From
20_memory.md sections 1 and 3 (command port, ordering), 70_reset_and_hazards.md section 1
(reset), notes/assumptions/7.md, notes/assumptions/8.md, notes/assumptions/11.md. That the words
offered are a list which the host does not withdraw from (log 7), which a reset leaves as it is
(log 8), and from which one step accepts one word (log 11), is the model's form. -/
def Obligations.NoAcceptanceWhileInFlight : Prop :=
    ∀ s t : State, step s = .next t →
      t.cmdPort = s.cmdPort ∨ (s.Idle ∧ ∃ w, s.cmdPort = w :: t.cmdPort)

/-- A command that raises a condition leaves S and the entropy port exactly as they were. From R162. -/
def Obligations.ConditionsLeaveStateAlone : Prop :=
    ∀ (s t : State) (r : Response), s.rst = false → (∀ q, s.activity ≠ .responding q) →
      step s = .next t → t.activity = .responding r → r.status ≠ .ok →
      t.S = s.S ∧ t.entPort = s.entPort ∧ t.taken = s.taken ∧ t.resets = s.resets ∧
        r.r0 = 0 ∧ r.r1 = 0

/-- Entropy values leave the port two at a time into S by a SEEDENT, or by an rst asserted on an
unfinished one, never otherwise. From 20_memory.md section 1 (entropy port), 42_seed_state.md
section 3, 70_reset_and_hazards.md section 1 (reset during a command), notes/assumptions/7.md,
notes/assumptions/10.md. That the values a SEEDENT draws leave the list when it completes or rst
is asserted, and that a draw has taken its value as soon as it was there, is the model's choice
(log 10). The acts of the host are the model's form of it (log 7). -/
def Obligations.EntropyTakenOnlyBySeedent : Prop :=
    (∀ s t : State, step s = .next t →
      t.entPort = s.entPort ∨
      (s.rst = false ∧ (∃ w, decode w = .ok .seedent ∧
          (s.activity = .executing w ∨ (s.activity = .idle ∧ s.cmdPort = w :: t.cmdPort))) ∧
        ∃ e0 e1, s.entPort = e0 :: e1 :: t.entPort ∧ t.S = joinHalves e0 e1 ∧
          t.activity = .responding (okResponse 0 0))) ∧
    (∀ s : State, (s.rst = false ∧ ∃ w, s.activity = .executing w ∧ decode w = .ok .seedent) →
      s.assertRst.entPort = s.entPort.drop 2) ∧
    (∀ s : State, ¬ (s.rst = false ∧ ∃ w, s.activity = .executing w ∧ decode w = .ok .seedent) →
      s.assertRst.entPort = s.entPort) ∧
    ∀ s : State, (∀ w, (s.offer w).entPort = s.entPort) ∧
      (∀ e, (s.deliver e).entPort = s.entPort ++ [e]) ∧ ∀ b, (s.setReady b).entPort = s.entPort

/-- S changes only by reset or by a command that completes with OK and is one that writes S. From
10_state.md section 3 (which command reads and writes S), 70_reset_and_hazards.md section 5
(agents). -/
def Obligations.OnlyCompletionOrResetChangesS : Prop :=
    ∀ s t : State, step s = .next t → t.S ≠ s.S →
      s.rst = true ∨
      ((∀ q, s.activity ≠ .responding q) ∧
        (∃ r, t.activity = .responding r ∧ r.status = .ok) ∧
        ∃ w i, decode w = .ok i ∧
          (s.activity = .executing w ∨ s.cmdPort = w :: t.cmdPort) ∧
          i ≠ .getstate ∧ (∀ a b, i ≠ .add64 a b) ∧ ∀ a b, i ≠ .wmul64 a b)

/-- What no command changes, and what no command's effect depends on. From 10_state.md section 3
(which command reads and writes S), 20_memory.md sections 1 and 2, 41_step.md section 2 (the
state sequence), notes/assumptions/7.md, notes/assumptions/8.md, notes/assumptions/12.md. That
the host's inputs are fields of the state (log 7, log 8), and that the responses taken and the
reset count are (log 12), is the model's form. -/
def Obligations.CommandFrame : Prop :=
    ∀ (i : Instr) (s t : State), exec i s = .next t →
      t.rst = s.rst ∧ t.rspReady = s.rspReady ∧ t.cmdPort = s.cmdPort ∧ t.taken = s.taken ∧
        t.resets = s.resets ∧
        (∀ (rst ready : Bool) (port : List CmdWord) (taken : List Response) (resets : Nat),
          exec i { s with rst := rst, rspReady := ready, cmdPort := port, taken := taken, resets := resets }
            = .next { t with
                rst := rst, rspReady := ready, cmdPort := port, taken := taken, resets := resets }) ∧
        (t.entPort = s.entPort ∨ (i = .seedent ∧ ∃ e0 e1, s.entPort = e0 :: e1 :: t.entPort)) ∧
        ((i = .getstate ∨ (∃ a b, i = .add64 a b) ∨ ∃ a b, i = .wmul64 a b) → t.S = s.S) ∧
        (∀ r, s.activity ≠ .responding r → t.activity = .responding r → r.status ≠ .ok → t.S = s.S) ∧
        ((i = .next64 ∨ i = .fnext64 ∨ i = .next32 ∨ i = .bool ∨ i = .unitdbl) →
          t.S = stateAfter Config.params s.S 1)

/-- A command that does not complete leaves the whole state as it is, and is one that may wait. From
00_scope.md section 4 (outcomes of a command), 60_exceptions.md section 6 (may never complete),
notes/assumptions/5.md, notes/assumptions/10.md. That exec answers a next state with the word
still in flight is the model's form (log 5), and that a SEEDENT which finds one value leaves it
on the port is the model's choice (log 10): by the spec its first draw may already have taken
that value. -/
def Obligations.UnfinishedCommandChangesNothing : Prop :=
    ∀ (i : Instr) (s t : State) (w : CmdWord), s.activity = .executing w →
      exec i s = .next t → (∀ r, t.activity ≠ .responding r) →
      t = s ∧
        ((i = .seedent ∧ s.entPort.length < 2) ∨
          ∃ bound, bound ≠ 0 ∧ NeverAccepts Config.params s.S bound ∧
            (i = .bounded bound ∨ i = .choose bound ∨
              ∃ min max, i = .range min max ∧ min < max ∧ bound = max - min))

/-- Equal S and equal entropy give equal responses and equal S for every command sequence. From
10_state.md section 1 (the state register), 20_memory.md section 3 (determinism),
95_test_vectors.md section 1.2 (P1), notes/assumptions/7.md, notes/assumptions/13.md. That the
entropy stream is a list of values (log 7), and how the host issues a list of commands (log 13),
is the model's form. -/
def Obligations.ResponsesDependOnlyOnStateAndEntropy : Prop :=
    ∀ (cmds : List Instr) (s t : State), s.S = t.S → s.entPort = t.entPort →
      (issueAll cmds s).map (fun x => (x.1, x.2.S, x.2.entPort))
        = (issueAll cmds t).map (fun x => (x.1, x.2.S, x.2.entPort))

/-- A run of commands through the ports is the fold of the per-command transitions, in order. From
20_memory.md section 3 (ordering), 70_reset_and_hazards.md section 5 (the end of a run),
notes/assumptions/11.md, notes/assumptions/12.md, notes/assumptions/13.md. That a command takes
two steps (log 11), that the responses taken stand in a list of the state (log 12), and how the
host issues a list of commands (log 13), is the model's form. -/
def Obligations.CommandRunIsFold : Prop :=
    ∀ (cmds : List Instr) (s t : State) (rest : List CmdWord) (rs : List Response),
      s.Idle → s.rspReady = true → s.cmdPort = cmds.map encode ++ rest →
      issueAll cmds s = some (rs, t) →
      Host.Core.run Sys2Proof.core (2 * cmds.length) s = .next { t with cmdPort := rest } ∧
        t.activity = .idle ∧ t.taken = s.taken ++ rs

/-- The invariant holds at reset. From 10_state.md section 4, 70_reset_and_hazards.md section 1,
notes/assumptions/12.md. The clause on taken responses holds because the list of them is empty
at reset, which is the model's choice (log 12) and not the spec's; the other clauses hold
because the block is idle after reset. -/
def Obligations.InvHoldsAtReset : Prop :=
    State.reset.Inv

/-- Every step keeps the invariant. From 00_scope.md section 4 (outcomes of a command),
30_encoding.md section 1 (response word), 60_exceptions.md sections 1, 2 and 6,
notes/assumptions/5.md, notes/assumptions/12.md. That a command which does not complete is kept
in flight between steps is the model's form (log 5). The list of responses taken is the model's
own field (log 12). -/
def Obligations.EveryStepKeepsInv : Prop :=
    ∀ s t : State, s.Inv → step s = .next t → t.Inv

/-- What the host and the entropy source may do between steps keeps the invariant, and withdraws
nothing that was not taken. From 70_reset_and_hazards.md sections 1 and 5 (reset, the host),
notes/assumptions/5.md, notes/assumptions/7.md, notes/assumptions/10.md,
notes/assumptions/12.md. These four acts are the model's choice (log 7), and so is which values
an asserted rst loses (log 10). That the invariant speaks of commands kept in flight is the
model's form (log 5), and the fields taken and resets are the model's own (log 12). -/
def Obligations.HostActsKeepInv : Prop :=
    ∀ s : State, s.Inv →
      ∀ t, (t = s.assertRst ∨ (∃ w, t = s.offer w) ∨ (∃ e, t = s.deliver e) ∨ ∃ b, t = s.setReady b) →
        t.Inv ∧ t.S = s.S ∧ t.activity = s.activity ∧ t.taken = s.taken ∧ t.resets = s.resets ∧
          s.cmdPort <+: t.cmdPort ∧
          (s.entPort <+: t.entPort ∨
            (t = s.assertRst ∧ s.entReady = true ∧ t.entPort = s.entPort.drop 2))

/-- Reset makes the block idle with S unspecified, abandons the command in flight, and loses exactly
the entropy its SEEDENT had taken. From 70_reset_and_hazards.md section 1 (reset),
notes/assumptions/1.md, notes/assumptions/8.md, notes/assumptions/10.md,
notes/assumptions/12.md. That S is a free value of the number of the reset (log 1, log 12), that
the reset is one event which clears rst and leaves the words offered (log 8), and that a draw
has taken its value as soon as it was there (log 10), is the model's form. -/
def Obligations.ResetEvent : Prop :=
    (∀ s : State, s.rst = true →
      s.cmdReady = false ∧ s.rspOffered = none ∧ s.entReady = false ∧
        step s = .next { s with
          S := Config.sReset (s.resets + 1), activity := .idle, rst := false,
          resets := s.resets + 1 }) ∧
    ∀ (s : State) (later : List Half),
      (s.entReady = true → step (later.foldl State.deliver s.assertRst) = .next { s with
        S := Config.sReset (s.resets + 1), activity := .idle, rst := false,
        resets := s.resets + 1, entPort := s.entPort.drop 2 ++ later }) ∧
      (s.entReady = false → step (later.foldl State.deliver s.assertRst) = .next { s with
        S := Config.sReset (s.resets + 1), activity := .idle, rst := false,
        resets := s.resets + 1, entPort := s.entPort ++ later })

/-- After reset the block is idle, with no command in flight, ready to accept one. From
70_reset_and_hazards.md section 1 (reset), notes/assumptions/7.md. The last clause, that a word
offered after reset stands first and alone on the command port, rests on the port being empty at
reset, which is the model's choice (log 7) and not the spec's. -/
def Obligations.ResetLeavesBlockIdle : Prop :=
    State.reset.Idle ∧ State.reset.cmdReady = true ∧ State.reset.rspOffered = none ∧
      State.reset.entReady = false ∧
      ∀ w, (State.reset.offer w).Offers w []

/-- add64 is the sum modulo 2^64, and equals its limb form with one carry between the limbs. From
R75, 40_arithmetic.md section 1 (limbs). -/
def Obligations.Add64WrapsAndLimbsAgree : Prop :=
    ∀ a b : Word, (add64 a b).toNat = (a.toNat + b.toNat) % 2 ^ 64 ∧
      (lo32 (add64 a b)).toNat = ((lo32 a).toNat + (lo32 b).toNat) % 2 ^ 32 ∧
      (hi32 (add64 a b)).toNat
        = ((hi32 a).toNat + (hi32 b).toNat + ((lo32 a).toNat + (lo32 b).toNat) / 2 ^ 32) % 2 ^ 32

/-- The two halves of the widening multiply are the exact 128-bit product. From R77. -/
def Obligations.WideningMultiplyIsExact : Prop :=
    ∀ a b : Word,
      (widenMul64 a b).1.toNat = a.toNat * b.toNat % 2 ^ 64 ∧
        (widenMul64 a b).2.toNat = a.toNat * b.toNat / 2 ^ 64 ∧
        (widenMul64 a b).1.toNat + 2 ^ 64 * (widenMul64 a b).2.toNat = a.toNat * b.toNat ∧
        (widenMul64 a b).2.toNat < 2 ^ 64 - 1

/-- The four partial products recompose to the product. From R78. -/
def Obligations.PartialProductsCompose : Prop :=
    ∀ a b : Word,
      (partials a b).ll.toNat = (lo32 a).toNat * (lo32 b).toNat ∧
        (partials a b).lh.toNat = (lo32 a).toNat * (hi32 b).toNat ∧
        (partials a b).hl.toNat = (hi32 a).toNat * (lo32 b).toNat ∧
        (partials a b).hh.toNat = (hi32 a).toNat * (hi32 b).toNat ∧
        a.toNat * b.toNat = (partials a b).ll.toNat
          + ((partials a b).lh.toNat + (partials a b).hl.toNat) * 2 ^ 32
          + (partials a b).hh.toNat * 2 ^ 64

/-- The limb algorithm and the native widening multiply agree for all inputs. From R79. -/
def Obligations.LimbAlgorithmEqualsMultiply : Prop :=
    ∀ a b : Word, limbMul64 a b = widenMul64 a b ∧
      (partials a b).mid ≤ 3 * (2 ^ 32 - 1) ∧
      (partials a b).hh.toNat + (hi32 (partials a b).lh).toNat + (hi32 (partials a b).hl).toNat
        + (partials a b).mid / 2 ^ 32 < 2 ^ 64

/-- The narrow multiply is exact and equals the low half of the widening multiply of the extended
operands. From R82. -/
def Obligations.NarrowMultiplyIsExact : Prop :=
    ∀ x y : Half, (mul32w x y).toNat = x.toNat * y.toNat ∧
      mul32w x y = (widenMul64 (zext64 x) (zext64 y)).1

/-- ADD64 and WMUL64 as commands: the result, IllegalCommand for a nonzero N, S untouched. From R83,
R84. -/
def Obligations.ArithmeticCommands : Prop :=
    ∀ (s : State) (w : CmdWord) (rest : List CmdWord), s.Offers w rest →
      (w.op = 0x01#8 → step s = .next (s.answered rest s.S
        (if w.n = 0 then okResponse (.ofNat 64 ((w.a.toNat + w.b.toNat) % 2 ^ 64)) 0
         else conditionResponse .illegalCommand))) ∧
      (w.op = 0x02#8 → step s = .next (s.answered rest s.S
        (if w.n = 0 then okResponse (.ofNat 64 (w.a.toNat * w.b.toNat % 2 ^ 64))
            (.ofNat 64 (w.a.toNat * w.b.toNat / 2 ^ 64))
         else conditionResponse .illegalCommand)))

/-- ADD64 and WMUL64 complete in every state with the exact results and change nothing else. From
40_arithmetic.md section 3 (ADD64, WMUL64). -/
def Obligations.ArithmeticMeaningsComplete : Prop :=
    (∀ (a b : Word) (s : State), exec (.add64 a b) s = .next { s with
        activity := .responding (okResponse (.ofNat 64 ((a.toNat + b.toNat) % 2 ^ 64)) 0) }) ∧
    ∀ (a b : Word) (s : State), exec (.wmul64 a b) s = .next { s with
      activity := .responding (okResponse (.ofNat 64 (a.toNat * b.toNat % 2 ^ 64))
        (.ofNat 64 (a.toNat * b.toNat / 2 ^ 64))) }

/-- The precise step: advance by C1, multiply by the advanced state XOR C2, fold the exact halves.
From R91. -/
def Obligations.PreciseStepIsExact : Prop :=
    ∀ (p : Params) (s : Word),
      let s' := BitVec.ofNat 64 ((s.toNat + p.c1.toNat) % 2 ^ 64)
      let m := s'.toNat * (s' ^^^ p.c2).toNat
      stepPrecise p s = (s', BitVec.ofNat 64 (m % 2 ^ 64) ^^^ BitVec.ofNat 64 (m / 2 ^ 64))

/-- The fast step: the precise step's successor, output FASTMIX of the four partial products of the
same operands. From R93. -/
def Obligations.FastStepFoldsPartials : Prop :=
    ∀ (p : Params) (s : Word),
      (stepFast p s).1 = (stepPrecise p s).1 ∧
        let s' := (stepPrecise p s).1
        let x := s' ^^^ p.c2
        (stepFast p s).2 = p.fastMix
          (.ofNat 64 ((lo32 s').toNat * (lo32 x).toNat)) (.ofNat 64 ((lo32 s').toNat * (hi32 x).toNat))
          (.ofNat 64 ((hi32 s').toNat * (lo32 x).toNat)) (.ofNat 64 ((hi32 s').toNat * (hi32 x).toNat))

/-- The state sequence visits every 64-bit value exactly once in 2^64 steps, in any mixture of the
variants. From 41_step.md section 2 (the state sequence), 00_scope.md section 3 (C1 is odd). -/
def Obligations.StateSequenceHasFullPeriod : Prop :=
    ∀ p : Params,
      (∀ (vs : List Variant) (s : Word), mixedSteps p vs s = stateAfter p s vs.length) ∧
        (∀ s v : Word, ∃! k : Nat, k < 2 ^ 64 ∧ stateAfter p s k = v) ∧
        ∀ s : Word, stateAfter p s (2 ^ 64) = s

/-- The two states whose product is zero, and no state is a fixed point. From R99. -/
def Obligations.DistinguishedStates : Prop :=
    ∀ p : Params,
      stepPrecise p (0 - p.c1) = (0, 0) ∧ stepFast p (0 - p.c1) = (0, p.fastMix 0 0 0 0) ∧
        stepPrecise p (p.c2 - p.c1) = (p.c2, 0) ∧
        stepFast p (p.c2 - p.c1) = (p.c2, p.fastMix 0 0 0 0) ∧
        ∀ s : Word, (stepPrecise p s).1 ≠ s ∧ (stepFast p s).1 ≠ s

/-- NEXT64 and FNEXT64 as commands: one step into S, the output in R0, IllegalCommand for any
reserved bit. From R97, R98. -/
def Obligations.RawStepCommands : Prop :=
    ∀ (s : State) (w : CmdWord) (rest : List CmdWord), s.Offers w rest →
      (w.op = 0x10#8 → step s = .next
        (if w.n = 0 ∧ w.b = 0 ∧ w.a = 0 then
          s.answered rest (stepPrecise Config.params s.S).1
            (okResponse (stepPrecise Config.params s.S).2 0)
         else s.answered rest s.S (conditionResponse .illegalCommand))) ∧
      (w.op = 0x11#8 → step s = .next
        (if w.n = 0 ∧ w.b = 0 ∧ w.a = 0 then
          s.answered rest (stepFast Config.params s.S).1
            (okResponse (stepFast Config.params s.S).2 0)
         else s.answered rest s.S (conditionResponse .illegalCommand)))

/-- NEXT64 and FNEXT64 complete in every state: S advances by C1, R0 is the output, nothing else
changes. From 41_step.md section 3 (NEXT64, FNEXT64). -/
def Obligations.RawStepMeaningsComplete : Prop :=
    (∀ s : State, exec .next64 s = .next { s with
        S := .ofNat 64 (s.S.toNat + Config.params.c1.toNat)
        activity := .responding (okResponse (stepPrecise Config.params s.S).2 0) }) ∧
    ∀ s : State, exec .fnext64 s = .next { s with
      S := .ofNat 64 (s.S.toNat + Config.params.c1.toNat)
      activity := .responding (okResponse (stepFast Config.params s.S).2 0) }

/-- SEED64 and SEED32X2 as commands: the seed stored raw, IllegalCommand for any reserved bit. From
R106, R107. -/
def Obligations.SeedCommands : Prop :=
    ∀ (s : State) (w : CmdWord) (rest : List CmdWord), s.Offers w rest →
      (w.op = 0x20#8 → step s = .next
        (if w.n = 0 ∧ w.b = 0 then s.answered rest w.a (okResponse 0 0)
         else s.answered rest s.S (conditionResponse .illegalCommand))) ∧
      (w.op = 0x21#8 → step s = .next
        (if w.n = 0 ∧ w.bHigh = 0 ∧ w.aHigh = 0 then
          s.answered rest (w.bLow ++ w.aLow) (okResponse 0 0)
         else s.answered rest s.S (conditionResponse .illegalCommand)))

/-- SETSTATE as a command: two components restore S, any other count is InvalidSeedShape, a reserved
bit is tested first. From R108. -/
def Obligations.SetstateCommand : Prop :=
    ∀ (s : State) (w : CmdWord) (rest : List CmdWord), s.Offers w rest → w.op = 0x22#8 →
      step s = .next
        (if w.bHigh ≠ 0 ∨ w.aHigh ≠ 0 then s.answered rest s.S (conditionResponse .illegalCommand)
         else if w.n ≠ 2 then s.answered rest s.S (conditionResponse .invalidSeedShape)
         else s.answered rest (w.bLow ++ w.aLow) (okResponse 0 0))

/-- GETSTATE as a command: the halves of S, low in R0, S not stepped. From R110. -/
def Obligations.GetstateCommand : Prop :=
    ∀ (s : State) (w : CmdWord) (rest : List CmdWord), s.Offers w rest → w.op = 0x23#8 →
      step s = .next (s.answered rest s.S
        (if w.n = 0 ∧ w.b = 0 ∧ w.a = 0 then
          okResponse (.ofNat 64 (s.S.toNat % 2 ^ 32)) (.ofNat 64 (s.S.toNat / 2 ^ 32))
         else conditionResponse .illegalCommand))

/-- SEEDENT as a command: two entropy values into S, first one low; with fewer no response;
IllegalCommand for any reserved bit. From R113. -/
def Obligations.SeedentCommand : Prop :=
    ∀ (s : State) (w : CmdWord) (rest : List CmdWord), s.Offers w rest → w.op = 0x24#8 →
      (¬ (w.n = 0 ∧ w.b = 0 ∧ w.a = 0) →
        step s = .next (s.answered rest s.S (conditionResponse .illegalCommand))) ∧
      ((w.n = 0 ∧ w.b = 0 ∧ w.a = 0) → ∀ e0 e1 more, s.entPort = e0 :: e1 :: more →
        step s = .next { s.answered rest (e1 ++ e0) (okResponse 0 0) with entPort := more }) ∧
      ((w.n = 0 ∧ w.b = 0 ∧ w.a = 0) → s.entPort.length < 2 →
        ∀ t, step s = .next t → t.S = s.S ∧ ∀ r, t.activity ≠ .responding r)

/-- A command that cannot complete yet stays in flight for any number of steps; a SEEDENT completes
when its second value is there. From 42_seed_state.md section 3 (SEEDENT waits without limit),
44_bounded.md section 1 (termination), notes/assumptions/5.md, notes/assumptions/10.md. That the
machine's step answers the state itself where a SEEDENT has no step is the model's form (log 5),
and that a waiting SEEDENT leaves a single value on the entropy port is the model's choice (log
10). -/
def Obligations.UnansweredCommandsWait : Prop :=
    (∀ (s : State) (w : CmdWord), s.rst = false → s.activity = .executing w →
      decode w = .ok .seedent →
      (s.entPort.length < 2 → blockStep s = none ∧ ∀ k, Host.Core.run Sys2Proof.core k s = .next s) ∧
      (∀ e0 e1 more, s.entPort = e0 :: e1 :: more → step s = .next { s with
          S := e1 ++ e0, entPort := more, activity := .responding (okResponse 0 0) })) ∧
    ∀ (s : State) (w : CmdWord) (i : Instr) (low bound : Half), s.rst = false →
      s.activity = .executing w → decode w = .ok i →
      ((i = .bounded bound ∧ bound ≠ 0 ∧ low = 0) ∨ (i = .choose bound ∧ bound ≠ 0 ∧ low = 0) ∨
        ∃ max, i = .range low max ∧ low < max ∧ bound = max - low) →
      (∃ k, FirstAccepted Config.params s.S bound k ∧ step s = .next { s with
          S := stateAfter Config.params s.S (k + 1)
          activity := .responding (okResponse
            (.ofNat 64 (low.toNat + (resultAt Config.params s.S bound k).toNat)) 0) }) ∨
      (NeverAccepts Config.params s.S bound ∧ blockStep s = some (.next s) ∧
        ∀ k, Host.Core.run Sys2Proof.core k s = .next s)

/-- The seeding and state-access commands complete with their own effect. From 42_seed_state.md
sections 1 and 3. -/
def Obligations.SeedingMeaningsComplete : Prop :=
    (∀ (v : Word) (s : State), exec (.seed64 v) s = .next { s with
        S := v, activity := .responding (okResponse 0 0) }) ∧
    (∀ (lo hi : Half) (s : State), exec (.seed32x2 lo hi) s = .next { s with
        S := hi ++ lo, activity := .responding (okResponse 0 0) }) ∧
    (∀ (lo hi : Half) (s : State), exec (.setstate 2 lo hi) s = .next { s with
        S := hi ++ lo, activity := .responding (okResponse 0 0) }) ∧
    (∀ s : State, exec .getstate s = .next { s with
        activity := .responding (okResponse (.ofNat 64 (s.S.toNat % 2 ^ 32)) (.ofNat 64 (s.S.toNat / 2 ^ 32))) }) ∧
    ∀ (s : State) (e0 e1 : Half) (more : List Half), s.entPort = e0 :: e1 :: more →
      exec .seedent s = .next { s with
        S := e1 ++ e0, entPort := more, activity := .responding (okResponse 0 0) }

/-- The three explicit seed forms store the same raw 64-bit value. From R112. -/
def Obligations.SeedFormsAgree : Prop :=
    ∀ (v : Word) (s : State),
      exec (.seed64 v) s = .next { s with S := v, activity := .responding (okResponse 0 0) } ∧
        exec (.seed32x2 (lo32 v) (hi32 v)) s = exec (.seed64 v) s ∧
        exec (.setstate 2 (lo32 v) (hi32 v)) s = exec (.seed64 v) s

/-- Saving and restoring the state reproduces every later response. From R111. -/
def Obligations.SnapshotRoundTrip : Prop :=
    ∀ s t : State, ∃ r s1 t1, issue .getstate s = some (r, s1) ∧ s1.S = s.S ∧
      issue (restore r.snapshot) t = some (okResponse 0 0, t1) ∧ t1.S = s.S ∧
      (s.entPort = t.entPort → ∀ cmds : List Instr,
        (issueAll cmds t1).map Prod.fst = (issueAll cmds s1).map Prod.fst)

/-- The double of a 53-bit integer m is exactly m * 2^-53, in [0, 1). From R128. -/
def Obligations.UnitDoubleIsExact : Prop :=
    ∀ m : BitVec 53, IsDouble53 (dbl53 m) m.toNat ∧ (dbl53 m).toNat < 0x3FF0000000000000

/-- NEXT32, BOOL and UNITDBL as commands: one step, the folded output in R0, IllegalCommand for any
reserved bit. From R122, R124, R127. -/
def Obligations.FixedDrawCommands : Prop :=
    ∀ (s : State) (w : CmdWord) (rest : List CmdWord), s.Offers w rest →
      (w.op = 0x30#8 → step s = .next
        (if w.n = 0 ∧ w.b = 0 ∧ w.a = 0 then
          s.answered rest (stepPrecise Config.params s.S).1
            (okResponse (.ofNat 64 ((stepPrecise Config.params s.S).2.toNat % 2 ^ 32)) 0)
         else s.answered rest s.S (conditionResponse .illegalCommand))) ∧
      (w.op = 0x31#8 → step s = .next
        (if w.n = 0 ∧ w.b = 0 ∧ w.a = 0 then
          s.answered rest (stepFast Config.params s.S).1
            (okResponse (.ofNat 64 ((stepFast Config.params s.S).2.toNat % 2)) 0)
         else s.answered rest s.S (conditionResponse .illegalCommand))) ∧
      (w.op = 0x32#8 → step s = .next
        (if w.n = 0 ∧ w.b = 0 ∧ w.a = 0 then
          s.answered rest (stepPrecise Config.params s.S).1
            (okResponse (dbl53 (.ofNat 53 ((stepPrecise Config.params s.S).2.toNat / 2 ^ 11))) 0)
         else s.answered rest s.S (conditionResponse .illegalCommand)))

/-- NEXT32, BOOL and UNITDBL complete in every state: S advances by C1 once, R0 is in range, nothing
else changes. From 43_sampling.md sections 1 to 3. -/
def Obligations.FixedDrawMeaningsComplete : Prop :=
    ∀ s : State,
      exec .next32 s = .next { s with
        S := .ofNat 64 (s.S.toNat + Config.params.c1.toNat)
        activity := .responding
          (okResponse (.ofNat 64 ((stepPrecise Config.params s.S).2.toNat % 2 ^ 32)) 0) } ∧
      exec .bool s = .next { s with
        S := .ofNat 64 (s.S.toNat + Config.params.c1.toNat)
        activity := .responding
          (okResponse (.ofNat 64 ((stepFast Config.params s.S).2.toNat % 2)) 0) } ∧
      ∃ bits, IsDouble53 bits ((stepPrecise Config.params s.S).2.toNat / 2 ^ 11) ∧
        exec .unitdbl s = .next { s with
          S := .ofNat 64 (s.S.toNat + Config.params.c1.toNat)
          activity := .responding (okResponse bits 0) }

/-- The threshold and the candidate of the bounded engine. From R137, R138. -/
def Obligations.ThresholdAndCandidate : Prop :=
    ∀ bound : Half, bound ≠ 0 →
      (threshold bound).toNat = 2 ^ 32 % bound.toNat ∧
        (threshold bound).toNat = (2 ^ 32 - bound.toNat) % bound.toNat ∧
        threshold bound < bound ∧ bound.toNat ∣ 2 ^ 32 - (threshold bound).toNat ∧
        (∀ k, bound.toNat = 2 ^ k → threshold bound = 0) ∧
        ∀ x : Half, (candidateHigh x bound).toNat = x.toNat * bound.toNat / 2 ^ 32 ∧
          (candidateLow x bound).toNat = x.toNat * bound.toNat % 2 ^ 32 ∧
          candidateHigh x bound < bound

/-- The engine returns the first accepted draw, and nothing exactly when no draw is ever accepted.
From R140, 44_bounded.md section 1 (termination). -/
def Obligations.EngineReturnsFirstAccepted : Prop :=
    ∀ (p : Params) (s : Word) (bound : Half), bound ≠ 0 →
      (∃ k, k < 2 ^ 64 ∧ FirstAccepted p s bound k ∧
        bounded p s bound = some (stateAfter p s (k + 1), resultAt p s bound k)) ∨
      (NeverAccepts p s bound ∧ bounded p s bound = none)

/-- Every result below the bound has the same number of accepted draws. From R141. -/
def Obligations.ExactUniformity : Prop :=
    ∀ bound : Half, bound ≠ 0 →
      (∀ r : Half, r < bound →
        ((Finset.range (2 ^ 32)).filter fun x =>
          Accepts bound (.ofNat 32 x) ∧ candidateHigh (.ofNat 32 x) bound = r).card
          = (2 ^ 32 - (threshold bound).toNat) / bound.toNat) ∧
        ((Finset.range (2 ^ 32)).filter fun x => ¬ Accepts bound (.ofNat 32 x)).card
          = (threshold bound).toNat

/-- BOUNDED as a command: the first accepted draw's result, InvalidRange for 0, IllegalCommand
first. From R144. -/
def Obligations.BoundedCommand : Prop :=
    ∀ (s : State) (w : CmdWord) (rest : List CmdWord), s.Offers w rest → w.op = 0x40#8 →
      (¬ (w.n = 0 ∧ w.b = 0 ∧ w.aHigh = 0) →
        step s = .next (s.answered rest s.S (conditionResponse .illegalCommand))) ∧
      ((w.n = 0 ∧ w.b = 0 ∧ w.aHigh = 0) → w.aLow = 0 →
        step s = .next (s.answered rest s.S (conditionResponse .invalidRange))) ∧
      ((w.n = 0 ∧ w.b = 0 ∧ w.aHigh = 0) → ¬ w.aLow = 0 →
        (∃ k, FirstAccepted Config.params s.S w.aLow k ∧
          resultAt Config.params s.S w.aLow k < w.aLow ∧
          step s = .next (s.answered rest (stateAfter Config.params s.S (k + 1))
            (okResponse (.ofNat 64 (resultAt Config.params s.S w.aLow k).toNat) 0))) ∨
        (NeverAccepts Config.params s.S w.aLow ∧
          ∀ t, step s = .next t → t.S = s.S ∧ ∀ r, t.activity ≠ .responding r))

/-- RANGE as a command: a result from min to max - 1, InvalidRange when max <= min, IllegalCommand
first. From R145. -/
def Obligations.RangeCommand : Prop :=
    ∀ (s : State) (w : CmdWord) (rest : List CmdWord), s.Offers w rest → w.op = 0x41#8 →
      (¬ (w.n = 0 ∧ w.bHigh = 0 ∧ w.aHigh = 0) →
        step s = .next (s.answered rest s.S (conditionResponse .illegalCommand))) ∧
      ((w.n = 0 ∧ w.bHigh = 0 ∧ w.aHigh = 0) → w.bLow.toNat ≤ w.aLow.toNat →
        step s = .next (s.answered rest s.S (conditionResponse .invalidRange))) ∧
      ((w.n = 0 ∧ w.bHigh = 0 ∧ w.aHigh = 0) → ¬ w.bLow.toNat ≤ w.aLow.toNat →
        (∃ k, FirstAccepted Config.params s.S (w.bLow - w.aLow) k ∧
          w.aLow.toNat + (resultAt Config.params s.S (w.bLow - w.aLow) k).toNat < w.bLow.toNat ∧
          step s = .next (s.answered rest (stateAfter Config.params s.S (k + 1))
            (okResponse (.ofNat 64 (w.aLow.toNat + (resultAt Config.params s.S (w.bLow - w.aLow) k).toNat)) 0))) ∨
        (NeverAccepts Config.params s.S (w.bLow - w.aLow) ∧
          ∀ t, step s = .next t → t.S = s.S ∧ ∀ r, t.activity ≠ .responding r))

/-- CHOOSE as a command: an index below length, EmptyCollection for 0, IllegalCommand first. From
R146. -/
def Obligations.ChooseCommand : Prop :=
    ∀ (s : State) (w : CmdWord) (rest : List CmdWord), s.Offers w rest → w.op = 0x42#8 →
      (¬ (w.n = 0 ∧ w.b = 0 ∧ w.aHigh = 0) →
        step s = .next (s.answered rest s.S (conditionResponse .illegalCommand))) ∧
      ((w.n = 0 ∧ w.b = 0 ∧ w.aHigh = 0) → w.aLow = 0 →
        step s = .next (s.answered rest s.S (conditionResponse .emptyCollection))) ∧
      ((w.n = 0 ∧ w.b = 0 ∧ w.aHigh = 0) → ¬ w.aLow = 0 →
        (∃ k, FirstAccepted Config.params s.S w.aLow k ∧
          resultAt Config.params s.S w.aLow k < w.aLow ∧
          step s = .next (s.answered rest (stateAfter Config.params s.S (k + 1))
            (okResponse (.ofNat 64 (resultAt Config.params s.S w.aLow k).toNat) 0))) ∨
        (NeverAccepts Config.params s.S w.aLow ∧
          ∀ t, step s = .next t → t.S = s.S ∧ ∀ r, t.activity ≠ .responding r))

/-- BOUNDED, RANGE and CHOOSE complete at the first accepted draw, with a result in range. From
44_bounded.md section 2 (BOUNDED, RANGE, CHOOSE). -/
def Obligations.BoundedMeaningsComplete : Prop :=
    (∀ (bound : Half) (s : State) (k : Nat), bound ≠ 0 → FirstAccepted Config.params s.S bound k →
        ∃ r : Half, r = resultAt Config.params s.S bound k ∧ r < bound ∧
          exec (.bounded bound) s = .next { s with
            S := stateAfter Config.params s.S (k + 1)
            activity := .responding (okResponse (.ofNat 64 r.toNat) 0) } ∧
          exec (.choose bound) s = exec (.bounded bound) s) ∧
    ∀ (min max : Half) (s : State) (k : Nat), min < max →
      FirstAccepted Config.params s.S (max - min) k →
      ∃ r : Half, r.toNat = min.toNat + (resultAt Config.params s.S (max - min) k).toNat ∧
        min ≤ r ∧ r < max ∧
        exec (.range min max) s = .next { s with
          S := stateAfter Config.params s.S (k + 1)
          activity := .responding (okResponse (.ofNat 64 r.toNat) 0) }

/-- The operand conditions: each raised by its command alone, with no result and no change of S.
From 60_exceptions.md sections 1 and 2 (conditions and their effect). -/
def Obligations.OperandConditions : Prop :=
    (∀ (n : BitVec 8) (lo hi : Half) (s : State), n ≠ 2 → exec (.setstate n lo hi) s
        = .next { s with activity := .responding (conditionResponse .invalidSeedShape) }) ∧
    (∀ s : State, exec (.bounded 0) s
        = .next { s with activity := .responding (conditionResponse .invalidRange) }) ∧
    (∀ (min max : Half) (s : State), max.toNat ≤ min.toNat → exec (.range min max) s
        = .next { s with activity := .responding (conditionResponse .invalidRange) }) ∧
    (∀ s : State, exec (.choose 0) s
      = .next { s with activity := .responding (conditionResponse .emptyCollection) }) ∧
    ∀ (i : Instr) (s t : State) (r : Response), (∀ q, s.activity ≠ .responding q) →
      exec i s = .next t → t.activity = .responding r →
      (r.status = .invalidSeedShape → ∃ n lo hi, i = .setstate n lo hi ∧ n ≠ 2) ∧
        (r.status = .invalidRange →
          i = .bounded 0 ∨ ∃ min max, i = .range min max ∧ max.toNat ≤ min.toNat) ∧
        (r.status = .emptyCollection → i = .choose 0) ∧
        r.status ≠ .illegalCommand

/-- SHUFFLE permutes a copy of its input by the draws of BOUNDED L, ..., BOUNDED 1, at least one
draw per element. From 44_bounded.md section 3 (SHUFFLE), 95_test_vectors.md section 1.2 (P5),
notes/assumptions/13.md. How the host issues its commands, and that it gives no value when one
does not complete, is the model's form (log 13). -/
def Obligations.ShuffleIsPermutation : Prop :=
    (∀ (items d : List Nat) (s t : State), shuffle items s = some (d, t) ↔
        items.length ≤ maxCollection ∧ ∃ rs, issueAll (shuffleCommands items.length) s = some (rs, t) ∧
          d = swapEach 0 items (rs.map fun r => r.r0.toNat)) ∧
    (∀ (items d : List Nat) (s t : State), shuffle items s = some (d, t) →
        d.Perm items ∧
        (∃ ks : List Nat, ShuffleDraws Config.params items.length s.S ks t.S ∧
          ks.length = items.length ∧
          t.S = stateAfter Config.params s.S (items.length + ks.sum)) ∧
        ∃ rs : List Response, rs.length = items.length ∧ t.taken = s.taken ++ rs ∧
          ∀ r ∈ rs, r.status = .ok) ∧
    ∀ s : State, shuffle ([] : List Nat) s = some ([], s)

/-- CHOOSEONE returns the element at the index that CHOOSE length answers, or reports
EmptyCollection. From 30_encoding.md section 5 (pseudo-instructions), 44_bounded.md section 2
(CHOOSE), notes/assumptions/13.md. How the host issues its command, and that it gives no value
when it does not complete, is the model's form (log 13). -/
def Obligations.ChooseOneReturnsAnElement : Prop :=
    (∀ (items : List Nat) (s t : State) (x : Except Status Nat), chooseOne items s = some (x, t) ↔
        items.length ≤ maxCollection ∧
          ∃ r, issue (.choose (.ofNat 32 items.length)) s = some (r, t) ∧
            ((r.status = .ok ∧ ∃ a, items[r.r0.toNat]? = some a ∧ x = .ok a) ∨
              (r.status = .emptyCollection ∧ x = .error .emptyCollection))) ∧
    (∀ (items : List Nat) (s t : State) (r : Response), items.length ≤ maxCollection →
        issue (.choose (.ofNat 32 items.length)) s = some (r, t) →
        (items = [] ∧ r = conditionResponse .emptyCollection ∧ t.S = s.S) ∨
        (items ≠ [] ∧ r.status = .ok ∧ r.r0.toNat < items.length ∧
          ∃ k, FirstAccepted Config.params s.S (.ofNat 32 items.length) k ∧
            r.r0.toNat = (resultAt Config.params s.S (.ofNat 32 items.length) k).toNat ∧
            t.S = stateAfter Config.params s.S (k + 1))) ∧
    (∀ (items : List Nat) (s : State) (k : Nat), items ≠ [] → items.length ≤ maxCollection →
        FirstAccepted Config.params s.S (.ofNat 32 items.length) k →
        ∃ a t, items[(resultAt Config.params s.S (.ofNat 32 items.length) k).toNat]? = some a ∧
          a ∈ items ∧ chooseOne items s = some (.ok a, t) ∧
          t.S = stateAfter Config.params s.S (k + 1)) ∧
    ∀ s : State, ∃ t, chooseOne ([] : List Nat) s = some (.error .emptyCollection, t) ∧ t.S = s.S
end

