-- ==== Sys2Proof/Laws/Config.lean ====
section
/-! SUPPORT. The parameters as numbers: `C1` and `C2` are odd, and every odd value is a choice (R9). -/

namespace Sys2Proof

theorem Params.c1_toNat (p : Params) : p.c1.toNat = 2 * p.c1Top.toNat + 1 := by
  rw [Params.c1, BitVec.toNat_append, Nat.shiftLeft_eq, Nat.mul_comm,
    ← Nat.two_pow_add_eq_or_of_lt (by decide)]
  simp

theorem Params.c2_toNat (p : Params) : p.c2.toNat = 2 * p.c2Top.toNat + 1 := by
  rw [Params.c2, BitVec.toNat_append, Nat.shiftLeft_eq, Nat.mul_comm,
    ← Nat.two_pow_add_eq_or_of_lt (by decide)]
  simp

/-! ### The reference instance (R10) -/

@[simp] theorem reference_c1 : Config.reference.c1 = Config.c1Ref := by decide

@[simp] theorem reference_c2 : Config.reference.c2 = Config.c2Ref := by decide

@[simp] theorem reference_fastMix : Config.reference.fastMix = Config.fastMixRef := rfl

@[simp] theorem reference_variant32 : Config.reference.variant32 = .precise := rfl

@[simp] theorem reference_variantDbl : Config.reference.variantDbl = .precise := rfl

/-! ### Every odd value is a choice -/

/-- Every odd value is a choice of `C1` (R9). -/
theorem Params.c1_surjective (v : Word) (h : v.toNat % 2 = 1) (p : Params) :
    Params.c1 { p with c1Top := .ofNat 63 (v.toNat / 2) } = v := by
  apply BitVec.eq_of_toNat_eq
  have := v.isLt
  rw [Params.c1_toNat]
  simp only [BitVec.toNat_ofNat]
  omega

/-- Every odd value is a choice of `C2` (R9). -/
theorem Params.c2_surjective (v : Word) (h : v.toNat % 2 = 1) (p : Params) :
    Params.c2 { p with c2Top := .ofNat 63 (v.toNat / 2) } = v := by
  apply BitVec.eq_of_toNat_eq
  have := v.isLt
  rw [Params.c2_toNat]
  simp only [BitVec.toNat_ofNat]
  omega

end Sys2Proof
end

