-- ==== Sys2Proof/Laws/Arith.lean ====
section
/-! SUPPORT. Operand forms and arithmetic as facts about naturals. -/

namespace Sys2Proof.Machine

/-! ### Halves -/

@[simp] theorem lo32_toNat (v : Word) : (lo32 v).toNat = v.toNat % 2 ^ 32 := by
  simp [lo32]

@[simp] theorem hi32_toNat (v : Word) : (hi32 v).toNat = v.toNat / 2 ^ 32 := by
  have := v.isLt
  simp only [hi32, BitVec.extractLsb'_toNat, Nat.shiftRight_eq_div_pow]
  omega

@[simp] theorem joinHalves_toNat (lo hi : Half) :
    (joinHalves lo hi).toNat = hi.toNat * 2 ^ 32 + lo.toNat := by
  have := lo.isLt
  rw [joinHalves, BitVec.toNat_append, Nat.shiftLeft_eq, Nat.mul_comm,
    ← Nat.two_pow_add_eq_or_of_lt lo.isLt]

@[simp] theorem zext64_toNat (x : Half) : (zext64 x).toNat = x.toNat := by
  have := x.isLt
  simp only [zext64, BitVec.truncate_eq_setWidth, BitVec.toNat_setWidth]
  omega

theorem toNat_eq_halves (v : Word) : v.toNat = (hi32 v).toNat * 2 ^ 32 + (lo32 v).toNat := by
  rw [lo32_toNat, hi32_toNat]; omega

@[simp] theorem joinHalves_lo32_hi32 (v : Word) : joinHalves (lo32 v) (hi32 v) = v :=
  BitVec.eq_of_toNat_eq (by rw [joinHalves_toNat, ← toNat_eq_halves])

@[simp] theorem lo32_zext64 (x : Half) : lo32 (zext64 x) = x :=
  BitVec.eq_of_toNat_eq (by
    have := x.isLt
    simp only [lo32_toNat, zext64_toNat]; omega)

theorem zext64_eq_ofNat (x : Half) : zext64 x = .ofNat 64 x.toNat :=
  BitVec.eq_of_toNat_eq (by
    have := x.isLt
    simp only [zext64_toNat, BitVec.toNat_ofNat]; omega)

/-! ### Adder and multipliers -/

theorem add64_toNat (a b : Word) : (add64 a b).toNat = (a.toNat + b.toNat) % 2 ^ 64 :=
  BitVec.toNat_ofNat _ _

theorem add64_eq_add (a b : Word) : add64 a b = a + b :=
  BitVec.eq_of_toNat_eq (by rw [add64_toNat, BitVec.toNat_add])

theorem widenMul64_fst_toNat (a b : Word) :
    (widenMul64 a b).1.toNat = a.toNat * b.toNat % 2 ^ 64 := BitVec.toNat_ofNat _ _

theorem product_lt (a b : Word) : a.toNat * b.toNat ≤ (2 ^ 64 - 1) * (2 ^ 64 - 1) :=
  Nat.mul_le_mul (by have := a.isLt; omega) (by have := b.isLt; omega)

theorem widenMul64_snd_toNat (a b : Word) :
    (widenMul64 a b).2.toNat = a.toNat * b.toNat / 2 ^ 64 := by
  have := product_lt a b
  simp only [widenMul64, BitVec.toNat_ofNat]
  omega

theorem mul32w_toNat (x y : Half) : (mul32w x y).toNat = x.toNat * y.toNat := by
  have : x.toNat * y.toNat ≤ (2 ^ 32 - 1) * (2 ^ 32 - 1) :=
    Nat.mul_le_mul (by have := x.isLt; omega) (by have := y.isLt; omega)
  simp only [mul32w, BitVec.toNat_ofNat]
  omega

/-! ### Steps -/

@[simp] theorem stepPrecise_fst (p : Params) (s : Word) : (stepPrecise p s).1 = add64 s p.c1 := rfl

@[simp] theorem stepFast_fst (p : Params) (s : Word) : (stepFast p s).1 = add64 s p.c1 := rfl

@[simp] theorem stepVariant_fst (p : Params) (v : Variant) (s : Word) :
    (stepVariant p v s).1 = add64 s p.c1 := by
  cases v <;> rfl

@[simp] theorem next32_fst (p : Params) (s : Word) : (next32 p s).1 = add64 s p.c1 :=
  stepVariant_fst ..

@[simp] theorem nextBool_fst (p : Params) (s : Word) : (nextBool p s).1 = add64 s p.c1 := rfl

@[simp] theorem nextDouble_fst (p : Params) (s : Word) : (nextDouble p s).1 = add64 s p.c1 :=
  stepVariant_fst ..

/-! ### Threshold and candidates -/

@[simp] theorem candidateLow_toNat (x b : Half) :
    (candidateLow x b).toNat = x.toNat * b.toNat % 2 ^ 32 := by
  rw [candidateLow, lo32_toNat, mul32w_toNat]

@[simp] theorem candidateHigh_toNat (x b : Half) :
    (candidateHigh x b).toNat = x.toNat * b.toNat / 2 ^ 32 := by
  rw [candidateHigh, hi32_toNat, mul32w_toNat]

theorem toNat_pos_of_ne_zero {b : Half} (h : b ≠ 0) : 0 < b.toNat :=
  Nat.pos_of_ne_zero fun e => h (BitVec.eq_of_toNat_eq (by simpa using e))

theorem threshold_toNat {b : Half} (h : b ≠ 0) :
    (threshold b).toNat = (2 ^ 32 - b.toNat) % b.toNat := by
  have := Nat.mod_lt (2 ^ 32 - b.toNat) (toNat_pos_of_ne_zero h)
  have := b.isLt
  simp only [threshold, BitVec.toNat_ofNat]
  omega

theorem threshold_lt {b : Half} (h : b ≠ 0) : (threshold b).toNat < b.toNat := by
  rw [threshold_toNat h]
  exact Nat.mod_lt _ (toNat_pos_of_ne_zero h)

end Sys2Proof.Machine
end

