-- ==== Sys2Proof/Laws/Decode.lean ====
section
/-! SUPPORT. The decoder and the encoder through their fields: what a decoded word is, said once. -/

namespace Sys2Proof

/-! ### Fields as numbers -/

theorem toNat_append_eq {n m : Nat} (x : BitVec n) (y : BitVec m) :
    (x ++ y).toNat = x.toNat * 2 ^ m + y.toNat := by
  rw [BitVec.toNat_append, Nat.shiftLeft_eq, Nat.mul_comm, ← Nat.two_pow_add_eq_or_of_lt y.isLt]

theorem CmdWord.ofFields_toNat (op n : BitVec 8) (b a : Word) :
    (CmdWord.ofFields op n b a).toNat
      = ((op.toNat * 2 ^ 8 + n.toNat) * 2 ^ 64 + b.toNat) * 2 ^ 64 + a.toNat := by
  simp only [CmdWord.ofFields, toNat_append_eq]

theorem CmdWord.op_toNat (w : CmdWord) : w.op.toNat = w.toNat / 2 ^ 136 := by
  have := w.isLt
  simp only [CmdWord.op, BitVec.extractLsb'_toNat, Nat.shiftRight_eq_div_pow]
  omega

theorem CmdWord.n_toNat (w : CmdWord) : w.n.toNat = w.toNat / 2 ^ 128 % 2 ^ 8 := by
  simp only [CmdWord.n, BitVec.extractLsb'_toNat, Nat.shiftRight_eq_div_pow]

theorem CmdWord.b_toNat (w : CmdWord) : w.b.toNat = w.toNat / 2 ^ 64 % 2 ^ 64 := by
  simp only [CmdWord.b, BitVec.extractLsb'_toNat, Nat.shiftRight_eq_div_pow]

theorem CmdWord.a_toNat (w : CmdWord) : w.a.toNat = w.toNat % 2 ^ 64 := by
  simp only [CmdWord.a, BitVec.extractLsb'_toNat, Nat.shiftRight_zero]

theorem CmdWord.bHigh_toNat (w : CmdWord) : w.bHigh.toNat = w.b.toNat / 2 ^ 32 := by
  rw [CmdWord.b_toNat]
  simp only [CmdWord.bHigh, BitVec.extractLsb'_toNat, Nat.shiftRight_eq_div_pow]
  omega

theorem CmdWord.bLow_toNat (w : CmdWord) : w.bLow.toNat = w.b.toNat % 2 ^ 32 := by
  rw [CmdWord.b_toNat]
  simp only [CmdWord.bLow, BitVec.extractLsb'_toNat, Nat.shiftRight_eq_div_pow]
  omega

theorem CmdWord.aHigh_toNat (w : CmdWord) : w.aHigh.toNat = w.a.toNat / 2 ^ 32 := by
  rw [CmdWord.a_toNat]
  simp only [CmdWord.aHigh, BitVec.extractLsb'_toNat, Nat.shiftRight_eq_div_pow]
  omega

theorem CmdWord.aLow_toNat (w : CmdWord) : w.aLow.toNat = w.a.toNat % 2 ^ 32 := by
  rw [CmdWord.a_toNat]
  simp only [CmdWord.aLow, BitVec.extractLsb'_toNat, Nat.shiftRight_zero]
  omega

theorem lowField_toNat (x : Half) : (lowField x).toNat = x.toNat := by
  have := x.isLt
  simp only [lowField, BitVec.truncate_eq_setWidth, BitVec.toNat_setWidth]
  omega

/-! ### Fields of an encoded word -/

@[simp] theorem CmdWord.op_ofFields (op n : BitVec 8) (b a : Word) :
    (CmdWord.ofFields op n b a).op = op := by
  have := n.isLt; have := b.isLt; have := a.isLt
  apply BitVec.eq_of_toNat_eq
  rw [CmdWord.op_toNat, CmdWord.ofFields_toNat]; omega

@[simp] theorem CmdWord.n_ofFields (op n : BitVec 8) (b a : Word) :
    (CmdWord.ofFields op n b a).n = n := by
  have := n.isLt; have := b.isLt; have := a.isLt
  apply BitVec.eq_of_toNat_eq
  rw [CmdWord.n_toNat, CmdWord.ofFields_toNat]; omega

@[simp] theorem CmdWord.b_ofFields (op n : BitVec 8) (b a : Word) :
    (CmdWord.ofFields op n b a).b = b := by
  have := b.isLt; have := a.isLt
  apply BitVec.eq_of_toNat_eq
  rw [CmdWord.b_toNat, CmdWord.ofFields_toNat]; omega

@[simp] theorem CmdWord.a_ofFields (op n : BitVec 8) (b a : Word) :
    (CmdWord.ofFields op n b a).a = a := by
  have := a.isLt
  apply BitVec.eq_of_toNat_eq
  rw [CmdWord.a_toNat, CmdWord.ofFields_toNat]; omega

@[simp] theorem CmdWord.bHigh_ofFields_low (op n : BitVec 8) (x : Half) (a : Word) :
    (CmdWord.ofFields op n (lowField x) a).bHigh = 0 := by
  have := x.isLt
  apply BitVec.eq_of_toNat_eq
  rw [CmdWord.bHigh_toNat, CmdWord.b_ofFields, lowField_toNat]
  simp only [BitVec.ofNat_eq_ofNat, BitVec.toNat_ofNat]; omega

@[simp] theorem CmdWord.bLow_ofFields_low (op n : BitVec 8) (x : Half) (a : Word) :
    (CmdWord.ofFields op n (lowField x) a).bLow = x := by
  have := x.isLt
  apply BitVec.eq_of_toNat_eq
  rw [CmdWord.bLow_toNat, CmdWord.b_ofFields, lowField_toNat]; omega

@[simp] theorem CmdWord.aHigh_ofFields_low (op n : BitVec 8) (b : Word) (x : Half) :
    (CmdWord.ofFields op n b (lowField x)).aHigh = 0 := by
  have := x.isLt
  apply BitVec.eq_of_toNat_eq
  rw [CmdWord.aHigh_toNat, CmdWord.a_ofFields, lowField_toNat]
  simp only [BitVec.ofNat_eq_ofNat, BitVec.toNat_ofNat]; omega

@[simp] theorem CmdWord.aLow_ofFields_low (op n : BitVec 8) (b : Word) (x : Half) :
    (CmdWord.ofFields op n b (lowField x)).aLow = x := by
  have := x.isLt
  apply BitVec.eq_of_toNat_eq
  rw [CmdWord.aLow_toNat, CmdWord.a_ofFields, lowField_toNat]; omega

/-! ### The opcode map and the decode procedure -/

@[simp] theorem Mnemonic.ofOpcode_opcode (m : Mnemonic) : Mnemonic.ofOpcode m.opcode = some m := by
  cases m <;> rfl

theorem Mnemonic.opcode_of_ofOpcode {op : BitVec 8} {m : Mnemonic}
    (h : Mnemonic.ofOpcode op = some m) : op = m.opcode := by
  have := List.find?_some h
  exact (by simpa using this : m.opcode = op).symm

/-- The decode procedure on a word whose `OP` is that of `m` (R61). -/
theorem decode_of_op {w : CmdWord} {m : Mnemonic} (h : w.op = m.opcode) :
    decode w = if m.format.reservedClear w then .ok (m.withOperands w) else .error .reservedBit := by
  rw [decode, h, Mnemonic.ofOpcode_opcode]

/-- What a word that decodes is, said once. -/
theorem decode_ok_cases {w : CmdWord} {i : Instr} (h : decode w = .ok i) :
    ∃ m : Mnemonic, w.op = m.opcode ∧ m.format.reservedClear w = true ∧ i = m.withOperands w := by
  unfold decode at h
  split at h
  · cases h
  · next m hm =>
    split at h
    · next hr => exact ⟨m, Mnemonic.opcode_of_ofOpcode hm, hr, by cases h; rfl⟩
    · cases h

@[simp] theorem Mnemonic.withOperands_mnemonic (m : Mnemonic) (w : CmdWord) :
    (m.withOperands w).mnemonic = m := by
  cases m <;> rfl

/-- The `OP` of an encoded command is that of its name. -/
@[simp] theorem op_encode (i : Instr) : (encode i).op = i.mnemonic.opcode := by
  cases i <;> simp [encode]

end Sys2Proof
end

