-- ==== Sys2Proof/Laws/Engine.lean ====
section
/-! SUPPORT. The sequence of states and the rejection loop: what one iteration does. -/

namespace Sys2Proof.Machine

@[simp] theorem stateAfter_zero (p : Params) (s : Word) : stateAfter p s 0 = s :=
  BitVec.eq_of_toNat_eq (by simp [stateAfter])

/-- One step more is one addition of `C1` more (R96). -/
theorem add64_stateAfter (p : Params) (s : Word) (k : Nat) :
    add64 (stateAfter p s k) p.c1 = stateAfter p s (k + 1) := by
  apply BitVec.eq_of_toNat_eq
  simp only [stateAfter, BitVec.toNat_ofNat, add64_toNat]
  rw [Nat.add_mul]
  omega

/-- Starting one step later is starting with one step made (R96). -/
theorem stateAfter_add64 (p : Params) (s : Word) (k : Nat) :
    stateAfter p (add64 s p.c1) k = stateAfter p s (k + 1) := by
  apply BitVec.eq_of_toNat_eq
  simp only [stateAfter, BitVec.toNat_ofNat, add64_toNat]
  rw [Nat.add_mul]
  omega

/-- Steps after steps add up (R96). -/
theorem stateAfter_stateAfter (p : Params) (s : Word) (k l : Nat) :
    stateAfter p (stateAfter p s k) l = stateAfter p s (k + l) := by
  apply BitVec.eq_of_toNat_eq
  simp only [stateAfter, BitVec.toNat_ofNat]
  rw [Nat.add_mul]
  omega

theorem drawAt_zero (p : Params) (s : Word) : drawAt p s 0 = (next32 p s).2 := by
  rw [drawAt, stateAfter_zero]

/-- A draw is rejected exactly when it is not accepted (R139, R140). -/
theorem not_low_lt_threshold_iff (b x : Half) :
    ¬ candidateLow x b < threshold b ↔ Accepts b x := BitVec.not_lt

/-- An accepted draw ends the loop, whatever the fuel. -/
theorem redraw_of_accepts {p : Params} {b x : Half} (h : Accepts b x) (fuel : Nat) (s : Word) :
    redraw p b (threshold b) fuel s x = some (s, candidateHigh x b) := by
  have := (not_low_lt_threshold_iff b x).mpr h
  cases fuel <;> simp [redraw, this]

/-- A rejected draw makes one more. -/
theorem redraw_of_rejects {p : Params} {b x : Half} (h : ¬ Accepts b x) (fuel : Nat) (s : Word) :
    redraw p b (threshold b) (fuel + 1) s x
      = redraw p b (threshold b) fuel (next32 p s).1 (next32 p s).2 := by
  have : candidateLow x b < threshold b := by
    rw [← not_low_lt_threshold_iff] at h
    exact not_not.mp h
  simp [redraw, this]

theorem candidateHigh_lt {b : Half} (h : b ≠ 0) (x : Half) : candidateHigh x b < b := by
  rw [BitVec.lt_def, candidateHigh_toNat]
  exact Nat.div_lt_of_lt_mul (Nat.mul_lt_mul_of_pos_right x.isLt (toNat_pos_of_ne_zero h))

/-- An accepted first draw is the engine's result: the outer test of R139 only skips the threshold. -/
theorem bounded_of_accepts_first {p : Params} {s : Word} {b : Half}
    (h : Accepts b (next32 p s).2) :
    bounded p s b = some ((next32 p s).1, candidateHigh (next32 p s).2 b) := by
  simp only [bounded]
  split
  · exact redraw_of_accepts h ..
  · rfl

/-- A threshold of 0 accepts every draw. -/
theorem accepts_of_threshold_zero {b : Half} (h : threshold b = 0) (x : Half) : Accepts b x := by
  rw [Accepts, h, BitVec.le_def]
  simp

end Sys2Proof.Machine
end

