-- ==== Sys2Proof/Laws/PerInstr.lean ====
section
/-! SUPPORT. A statement about every command as syntax, with one lemma per command. -/

namespace Sys2Proof.Laws

/-- The operands of every term fit their fields (R52, R55, R62). -/
theorem instr_wellFormed (i : Instr) : i.wellFormed = true := by
  cases i <;>
    simp only [Instr.wellFormed, SourceCmd.wellFormed, SourceCmd.arityOk, SourceCmd.operandsFit,
      Instr.source, Instr.mnemonic, Mnemonic.operandWidths, List.zip, List.zipWith, List.all,
      decide_eq_true, BitVec.isLt, Bool.and_true, List.length] <;> rfl

namespace EncodesLegally

/-- The word of the command has the command's `OP` and no reserved bit of its format is 1
(R52, R56, R59). -/
def Statement (i : Instr) : Prop :=
  (encode i).op = i.mnemonic.opcode ∧ i.mnemonic.format.reservedClear (encode i) = true

theorem add64 (a b : Word) : Statement (.add64 a b) := by
  simp [Statement, encode, Instr.mnemonic, Mnemonic.format, Format.reservedClear]

theorem wmul64 (a b : Word) : Statement (.wmul64 a b) := by
  simp [Statement, encode, Instr.mnemonic, Mnemonic.format, Format.reservedClear]

theorem next64 : Statement .next64 := by
  simp [Statement, encode, Instr.mnemonic, Mnemonic.format, Format.reservedClear]

theorem fnext64 : Statement .fnext64 := by
  simp [Statement, encode, Instr.mnemonic, Mnemonic.format, Format.reservedClear]

theorem seed64 (seed : Word) : Statement (.seed64 seed) := by
  simp [Statement, encode, Instr.mnemonic, Mnemonic.format, Format.reservedClear]

theorem seed32x2 (lo hi : Half) : Statement (.seed32x2 lo hi) := by
  simp [Statement, encode, Instr.mnemonic, Mnemonic.format, Format.reservedClear]

theorem setstate (n : BitVec 8) (lo hi : Half) : Statement (.setstate n lo hi) := by
  simp [Statement, encode, Instr.mnemonic, Mnemonic.format, Format.reservedClear]

theorem getstate : Statement .getstate := by
  simp [Statement, encode, Instr.mnemonic, Mnemonic.format, Format.reservedClear]

theorem seedent : Statement .seedent := by
  simp [Statement, encode, Instr.mnemonic, Mnemonic.format, Format.reservedClear]

theorem next32 : Statement .next32 := by
  simp [Statement, encode, Instr.mnemonic, Mnemonic.format, Format.reservedClear]

theorem bool : Statement .bool := by
  simp [Statement, encode, Instr.mnemonic, Mnemonic.format, Format.reservedClear]

theorem unitdbl : Statement .unitdbl := by
  simp [Statement, encode, Instr.mnemonic, Mnemonic.format, Format.reservedClear]

theorem bounded (bound : Half) : Statement (.bounded bound) := by
  simp [Statement, encode, Instr.mnemonic, Mnemonic.format, Format.reservedClear]

theorem range (min max : Half) : Statement (.range min max) := by
  simp [Statement, encode, Instr.mnemonic, Mnemonic.format, Format.reservedClear]

theorem choose (length : Half) : Statement (.choose length) := by
  simp [Statement, encode, Instr.mnemonic, Mnemonic.format, Format.reservedClear]

end EncodesLegally

end Sys2Proof.Laws
end

