-- ==== Sys2Proof/Laws/Pseudo.lean ====
section
/-! SUPPORT. Swapping positions of a collection: the length and the elements stay. -/

namespace Sys2Proof.Machine

@[simp] theorem swapAt_length {α : Type} (d : List α) (i j : Nat) :
    (swapAt d i j).length = d.length := by
  unfold swapAt
  split <;> simp

/-- A swap permutes; a position outside the collection changes nothing. -/
theorem swapAt_perm {α : Type} (d : List α) (i j : Nat) : (swapAt d i j).Perm d := by
  unfold swapAt
  split
  · next x y hx hy =>
    obtain ⟨hi, rfl⟩ := List.getElem?_eq_some_iff.mp hx
    obtain ⟨hj, rfl⟩ := List.getElem?_eq_some_iff.mp hy
    exact List.set_set_perm hi hj
  · exact .refl d

/-- Swaps one after another permute. -/
theorem swapEach_perm {α : Type} (rs : List Nat) :
    ∀ (i : Nat) (d : List α), (swapEach i d rs).Perm d := by
  induction rs with
  | nil => exact fun _ d => .refl d
  | cons r rs ih => exact fun _ _ => (ih _ _).trans (swapAt_perm ..)

end Sys2Proof.Machine
end

