-- ==== Sys2Proof/Laws/State.lean ====
section
/-! SUPPORT. One lemma per field per update of the state, so that no proof unfolds a record update. -/

namespace Sys2Proof.Machine

@[simp] theorem State.withS_S (s : State) (v : Word) :
    (s.withS v).S = v := rfl
@[simp] theorem State.withS_activity (s : State) (v : Word) :
    (s.withS v).activity = s.activity := rfl
@[simp] theorem State.withS_rst (s : State) (v : Word) :
    (s.withS v).rst = s.rst := rfl
@[simp] theorem State.withS_rspReady (s : State) (v : Word) :
    (s.withS v).rspReady = s.rspReady := rfl
@[simp] theorem State.withS_cmdPort (s : State) (v : Word) :
    (s.withS v).cmdPort = s.cmdPort := rfl
@[simp] theorem State.withS_entPort (s : State) (v : Word) :
    (s.withS v).entPort = s.entPort := rfl
@[simp] theorem State.withS_taken (s : State) (v : Word) :
    (s.withS v).taken = s.taken := rfl
@[simp] theorem State.withS_resets (s : State) (v : Word) :
    (s.withS v).resets = s.resets := rfl

@[simp] theorem State.respond_S (s : State) (c : Status) (r0 r1 : Word) :
    (s.respond c r0 r1).S = s.S := rfl
@[simp] theorem State.respond_activity (s : State) (c : Status) (r0 r1 : Word) :
    (s.respond c r0 r1).activity = .responding ⟨c, r0, r1⟩ := rfl
@[simp] theorem State.respond_rst (s : State) (c : Status) (r0 r1 : Word) :
    (s.respond c r0 r1).rst = s.rst := rfl
@[simp] theorem State.respond_rspReady (s : State) (c : Status) (r0 r1 : Word) :
    (s.respond c r0 r1).rspReady = s.rspReady := rfl
@[simp] theorem State.respond_cmdPort (s : State) (c : Status) (r0 r1 : Word) :
    (s.respond c r0 r1).cmdPort = s.cmdPort := rfl
@[simp] theorem State.respond_entPort (s : State) (c : Status) (r0 r1 : Word) :
    (s.respond c r0 r1).entPort = s.entPort := rfl
@[simp] theorem State.respond_taken (s : State) (c : Status) (r0 r1 : Word) :
    (s.respond c r0 r1).taken = s.taken := rfl
@[simp] theorem State.respond_resets (s : State) (c : Status) (r0 r1 : Word) :
    (s.respond c r0 r1).resets = s.resets := rfl

@[simp] theorem State.raise_S (s : State) (c : Status) :
    (s.raise c).S = s.S := rfl
@[simp] theorem State.raise_activity (s : State) (c : Status) :
    (s.raise c).activity = .responding ⟨c, 0, 0⟩ := rfl
@[simp] theorem State.raise_rst (s : State) (c : Status) :
    (s.raise c).rst = s.rst := rfl
@[simp] theorem State.raise_rspReady (s : State) (c : Status) :
    (s.raise c).rspReady = s.rspReady := rfl
@[simp] theorem State.raise_cmdPort (s : State) (c : Status) :
    (s.raise c).cmdPort = s.cmdPort := rfl
@[simp] theorem State.raise_entPort (s : State) (c : Status) :
    (s.raise c).entPort = s.entPort := rfl
@[simp] theorem State.raise_taken (s : State) (c : Status) :
    (s.raise c).taken = s.taken := rfl
@[simp] theorem State.raise_resets (s : State) (c : Status) :
    (s.raise c).resets = s.resets := rfl

@[simp] theorem State.takeResponse_S (s : State) (r : Response) :
    (s.takeResponse r).S = s.S := rfl
@[simp] theorem State.takeResponse_activity (s : State) (r : Response) :
    (s.takeResponse r).activity = .idle := rfl
@[simp] theorem State.takeResponse_rst (s : State) (r : Response) :
    (s.takeResponse r).rst = s.rst := rfl
@[simp] theorem State.takeResponse_rspReady (s : State) (r : Response) :
    (s.takeResponse r).rspReady = s.rspReady := rfl
@[simp] theorem State.takeResponse_cmdPort (s : State) (r : Response) :
    (s.takeResponse r).cmdPort = s.cmdPort := rfl
@[simp] theorem State.takeResponse_entPort (s : State) (r : Response) :
    (s.takeResponse r).entPort = s.entPort := rfl
@[simp] theorem State.takeResponse_taken (s : State) (r : Response) :
    (s.takeResponse r).taken = s.taken ++ [r] := rfl
@[simp] theorem State.takeResponse_resets (s : State) (r : Response) :
    (s.takeResponse r).resets = s.resets := rfl

@[simp] theorem State.accept_S (s : State) (w : CmdWord) (rest : List CmdWord) :
    (s.accept w rest).S = s.S := rfl
@[simp] theorem State.accept_activity (s : State) (w : CmdWord) (rest : List CmdWord) :
    (s.accept w rest).activity = .executing w := rfl
@[simp] theorem State.accept_rst (s : State) (w : CmdWord) (rest : List CmdWord) :
    (s.accept w rest).rst = s.rst := rfl
@[simp] theorem State.accept_rspReady (s : State) (w : CmdWord) (rest : List CmdWord) :
    (s.accept w rest).rspReady = s.rspReady := rfl
@[simp] theorem State.accept_cmdPort (s : State) (w : CmdWord) (rest : List CmdWord) :
    (s.accept w rest).cmdPort = rest := rfl
@[simp] theorem State.accept_entPort (s : State) (w : CmdWord) (rest : List CmdWord) :
    (s.accept w rest).entPort = s.entPort := rfl
@[simp] theorem State.accept_taken (s : State) (w : CmdWord) (rest : List CmdWord) :
    (s.accept w rest).taken = s.taken := rfl
@[simp] theorem State.accept_resets (s : State) (w : CmdWord) (rest : List CmdWord) :
    (s.accept w rest).resets = s.resets := rfl

@[simp] theorem State.withEntropy_S (s : State) (rest : List Half) :
    (s.withEntropy rest).S = s.S := rfl
@[simp] theorem State.withEntropy_activity (s : State) (rest : List Half) :
    (s.withEntropy rest).activity = s.activity := rfl
@[simp] theorem State.withEntropy_rst (s : State) (rest : List Half) :
    (s.withEntropy rest).rst = s.rst := rfl
@[simp] theorem State.withEntropy_rspReady (s : State) (rest : List Half) :
    (s.withEntropy rest).rspReady = s.rspReady := rfl
@[simp] theorem State.withEntropy_cmdPort (s : State) (rest : List Half) :
    (s.withEntropy rest).cmdPort = s.cmdPort := rfl
@[simp] theorem State.withEntropy_entPort (s : State) (rest : List Half) :
    (s.withEntropy rest).entPort = rest := rfl
@[simp] theorem State.withEntropy_taken (s : State) (rest : List Half) :
    (s.withEntropy rest).taken = s.taken := rfl
@[simp] theorem State.withEntropy_resets (s : State) (rest : List Half) :
    (s.withEntropy rest).resets = s.resets := rfl

@[simp] theorem State.applyReset_S (s : State) :
    s.applyReset.S = Config.sReset (s.resets + 1) := rfl
@[simp] theorem State.applyReset_activity (s : State) :
    s.applyReset.activity = .idle := rfl
@[simp] theorem State.applyReset_rst (s : State) :
    s.applyReset.rst = false := rfl
@[simp] theorem State.applyReset_rspReady (s : State) :
    s.applyReset.rspReady = s.rspReady := rfl
@[simp] theorem State.applyReset_cmdPort (s : State) :
    s.applyReset.cmdPort = s.cmdPort := rfl
@[simp] theorem State.applyReset_entPort (s : State) :
    s.applyReset.entPort = s.entPort := rfl
@[simp] theorem State.applyReset_taken (s : State) :
    s.applyReset.taken = s.taken := rfl
@[simp] theorem State.applyReset_resets (s : State) :
    s.applyReset.resets = s.resets + 1 := rfl

@[simp] theorem State.offer_S (s : State) (w : CmdWord) :
    (s.offer w).S = s.S := rfl
@[simp] theorem State.offer_activity (s : State) (w : CmdWord) :
    (s.offer w).activity = s.activity := rfl
@[simp] theorem State.offer_rst (s : State) (w : CmdWord) :
    (s.offer w).rst = s.rst := rfl
@[simp] theorem State.offer_rspReady (s : State) (w : CmdWord) :
    (s.offer w).rspReady = s.rspReady := rfl
@[simp] theorem State.offer_cmdPort (s : State) (w : CmdWord) :
    (s.offer w).cmdPort = s.cmdPort ++ [w] := rfl
@[simp] theorem State.offer_entPort (s : State) (w : CmdWord) :
    (s.offer w).entPort = s.entPort := rfl
@[simp] theorem State.offer_taken (s : State) (w : CmdWord) :
    (s.offer w).taken = s.taken := rfl
@[simp] theorem State.offer_resets (s : State) (w : CmdWord) :
    (s.offer w).resets = s.resets := rfl

@[simp] theorem State.deliver_S (s : State) (e : Half) :
    (s.deliver e).S = s.S := rfl
@[simp] theorem State.deliver_activity (s : State) (e : Half) :
    (s.deliver e).activity = s.activity := rfl
@[simp] theorem State.deliver_rst (s : State) (e : Half) :
    (s.deliver e).rst = s.rst := rfl
@[simp] theorem State.deliver_rspReady (s : State) (e : Half) :
    (s.deliver e).rspReady = s.rspReady := rfl
@[simp] theorem State.deliver_cmdPort (s : State) (e : Half) :
    (s.deliver e).cmdPort = s.cmdPort := rfl
@[simp] theorem State.deliver_entPort (s : State) (e : Half) :
    (s.deliver e).entPort = s.entPort ++ [e] := rfl
@[simp] theorem State.deliver_taken (s : State) (e : Half) :
    (s.deliver e).taken = s.taken := rfl
@[simp] theorem State.deliver_resets (s : State) (e : Half) :
    (s.deliver e).resets = s.resets := rfl

@[simp] theorem State.assertRst_S (s : State) :
    s.assertRst.S = s.S := rfl
@[simp] theorem State.assertRst_activity (s : State) :
    s.assertRst.activity = s.activity := rfl
@[simp] theorem State.assertRst_rst (s : State) :
    s.assertRst.rst = true := rfl
@[simp] theorem State.assertRst_rspReady (s : State) :
    s.assertRst.rspReady = s.rspReady := rfl
@[simp] theorem State.assertRst_cmdPort (s : State) :
    s.assertRst.cmdPort = s.cmdPort := rfl
@[simp] theorem State.assertRst_entPort (s : State) :
    s.assertRst.entPort = s.untakenEntropy := rfl
@[simp] theorem State.assertRst_taken (s : State) :
    s.assertRst.taken = s.taken := rfl
@[simp] theorem State.assertRst_resets (s : State) :
    s.assertRst.resets = s.resets := rfl

@[simp] theorem State.setReady_S (s : State) (b : Bool) :
    (s.setReady b).S = s.S := rfl
@[simp] theorem State.setReady_activity (s : State) (b : Bool) :
    (s.setReady b).activity = s.activity := rfl
@[simp] theorem State.setReady_rst (s : State) (b : Bool) :
    (s.setReady b).rst = s.rst := rfl
@[simp] theorem State.setReady_rspReady (s : State) (b : Bool) :
    (s.setReady b).rspReady = b := rfl
@[simp] theorem State.setReady_cmdPort (s : State) (b : Bool) :
    (s.setReady b).cmdPort = s.cmdPort := rfl
@[simp] theorem State.setReady_entPort (s : State) (b : Bool) :
    (s.setReady b).entPort = s.entPort := rfl
@[simp] theorem State.setReady_taken (s : State) (b : Bool) :
    (s.setReady b).taken = s.taken := rfl
@[simp] theorem State.setReady_resets (s : State) (b : Bool) :
    (s.setReady b).resets = s.resets := rfl

end Sys2Proof.Machine
end

