-- ==== Sys2Proof/Laws/Step.lean ====
section
/-! SUPPORT. What each shared operation, `exec` and `step` can do, said once. -/

namespace Sys2Proof.Machine

/-! ### Shared operations -/

/-- The bounded engine on the machine: a completed command, or no change at all. -/
theorem State.sampleBounded_cases (s : State) (b : Half) (f : Half → Half) :
    (∃ s' r, bounded Config.params s.S b = some (s', r) ∧
        s.sampleBounded b f = (s.withS s').respond .ok (zext64 (f r)) 0) ∨
      (bounded Config.params s.S b = none ∧ s.sampleBounded b f = s) := by
  unfold State.sampleBounded
  cases h : bounded Config.params s.S b with
  | none => exact .inr ⟨rfl, rfl⟩
  | some x => exact .inl ⟨x.1, x.2, rfl, rfl⟩

/-- Seeding from the entropy port: two values taken into `S`, or no change at all. -/
theorem State.seedFromEntropy_cases (s : State) :
    (∃ e0 e1 rest, s.entPort = e0 :: e1 :: rest ∧ s.seedFromEntropy =
        ((s.withEntropy rest).withS (joinHalves e0 e1)).respond .ok 0 0) ∨
      (s.entPort.length < 2 ∧ s.seedFromEntropy = s) := by
  unfold State.seedFromEntropy
  match s.entPort with
  | e0 :: e1 :: rest => exact .inl ⟨e0, e1, rest, rfl, rfl⟩
  | [_] => exact .inr ⟨by simp, rfl⟩
  | [] => exact .inr ⟨by simp, rfl⟩

/-- Offering a response: taken by a ready host, else held without a step. -/
theorem State.offerResponse_cases (s : State) (r : Response) :
    (s.rspReady = true ∧ s.offerResponse r = some (s.takeResponse r)) ∨
      (s.rspReady = false ∧ s.offerResponse r = none) := by
  unfold State.offerResponse
  cases s.rspReady <;> simp

/-- A `SEEDENT` is in flight exactly when the word in flight decodes to it. -/
theorem State.seedentInFlight_iff (s : State) :
    s.seedentInFlight = true ↔ ∃ w, s.activity = .executing w ∧ decode w = .ok .seedent := by
  unfold State.seedentInFlight
  rcases s.activity with _ | w | r <;> simp
  cases decode w <;> simp

/-- While `rst` is asserted the block takes no entropy (R175). -/
@[simp] theorem State.entReady_of_rst {s : State} (h : s.rst = true) : s.entReady = false := by
  simp [State.entReady, h]

/-- The entropy port is ready exactly for a `SEEDENT` in flight and no reset (R39, R175). -/
theorem State.entReady_iff (s : State) :
    s.entReady = true ↔ s.rst = false ∧ ∃ w, s.activity = .executing w ∧ decode w = .ok .seedent := by
  simp [State.entReady, s.seedentInFlight_iff]

/-- Where the block takes no entropy, all of it is left. -/
theorem State.untakenEntropy_of_not_ready {s : State} (h : s.entReady = false) :
    s.untakenEntropy = s.entPort := by
  simp [State.untakenEntropy, h]

/-- Where the block takes entropy, what follows the two values of its `SEEDENT` is left. -/
theorem State.untakenEntropy_of_ready {s : State} (h : s.entReady = true) :
    s.untakenEntropy = s.entPort.drop 2 := by
  simp [State.untakenEntropy, h]

/-- Asserting `rst` while it is asserted changes nothing. -/
theorem State.assertRst_of_rst {s : State} (h : s.rst = true) : s.assertRst = s := by
  cases s
  cases h
  rfl

/-- An unanswered draw is a `SEEDENT` in flight with fewer than two values on the port. -/
theorem State.drawUnanswered_iff {s : State} {w : CmdWord} (ha : s.activity = .executing w) :
    s.drawUnanswered = true ↔ decode w = .ok .seedent ∧ s.entPort.length < 2 := by
  simp [State.drawUnanswered, State.seedentInFlight_iff, ha]

/-- On an unanswered draw the meaning of `SEEDENT` is no change at all (R114). -/
theorem State.seedFromEntropy_of_drawUnanswered {s : State} (h : s.drawUnanswered = true) :
    s.seedFromEntropy = s := by
  rcases s.seedFromEntropy_cases with ⟨e0, e1, rest, he, -⟩ | ⟨-, hs⟩
  · simp [State.drawUnanswered, he] at h
  · exact hs

/-- What the block turns to next. -/
theorem State.phase_cases (s : State) :
    (s.rst = true ∧ s.phase = .resetting) ∨
      (s.rst = false ∧ ∃ r, s.activity = .responding r ∧ s.phase = .responding r) ∨
      (s.rst = false ∧ ∃ w, s.activity = .executing w ∧
        ((s.drawUnanswered = true ∧ s.phase = .stuck) ∨
          (s.drawUnanswered = false ∧ s.phase = .executing w s))) ∨
      (s.rst = false ∧ s.activity = .idle ∧ s.cmdPort = [] ∧ s.phase = .quiet) ∨
      (s.rst = false ∧ s.activity = .idle ∧ ∃ w rest, s.cmdPort = w :: rest ∧
        s.phase = .executing w (s.accept w rest)) := by
  unfold State.phase
  rcases hr : s.rst with _ | _
  · rcases ha : s.activity with _ | w | r
    · rcases hc : s.cmdPort with _ | ⟨w, rest⟩
      · exact .inr (.inr (.inr (.inl ⟨rfl, rfl, rfl, by simp⟩)))
      · exact .inr (.inr (.inr (.inr ⟨rfl, rfl, w, rest, rfl, by simp⟩)))
    · refine .inr (.inr (.inl ⟨rfl, w, rfl, ?_⟩))
      cases hu : s.drawUnanswered <;> simp
    · exact .inr (.inl ⟨rfl, r, rfl, by simp⟩)
  · exact .inl ⟨rfl, by simp⟩

/-! ### The meanings -/

/-- The three ways a command can go: it completes with a response, or it is a bounded command that
never accepts, or it is a `SEEDENT` that waits. -/
inductive ExecCase (i : Instr) (s : State) : State → Prop
  | completes (v : Word) (ent : List Half) (r : Response) (good : r.Good)
      (failed : r.status ≠ .ok → v = s.S ∧ ent = s.entPort)
      (noEntropy : i ≠ .seedent → ent = s.entPort)
      (entropy : i = .seedent → ∃ e0 e1, s.entPort = e0 :: e1 :: ent ∧ v = joinHalves e0 e1 ∧
        r = okResponse 0 0)
      (readOnly : (i = .getstate ∨ (∃ a b, i = .add64 a b) ∨ ∃ a b, i = .wmul64 a b) → v = s.S) :
      ExecCase i s { s with S := v, entPort := ent, activity := .responding r }
  | rejects (may : Instr.mayWait i) (notEntropy : i ≠ .seedent) : ExecCase i s s
  | waits (isSeedent : i = .seedent) (few : s.entPort.length < 2) : ExecCase i s s

theorem okResponse_good (r0 r1 : Word) : (okResponse r0 r1).Good := fun h => absurd rfl h

theorem conditionResponse_good (c : Status) : (conditionResponse c).Good := fun _ => ⟨rfl, rfl⟩

/-- A command that completes with `OK`, writes `v` and takes no entropy. -/
theorem ExecCase.ok_case {i : Instr} {s : State} (v r0 r1 : Word) (hi : i ≠ .seedent)
    (hv : (i = .getstate ∨ (∃ a b, i = .add64 a b) ∨ ∃ a b, i = .wmul64 a b) → v = s.S) :
    ExecCase i s ((s.withS v).respond .ok r0 r1) :=
  .completes v s.entPort (okResponse r0 r1) (okResponse_good r0 r1) (fun h => absurd rfl h)
    (fun _ => rfl) (fun h => absurd h hi) hv

/-- A command that raises a condition. -/
theorem ExecCase.raise_case {i : Instr} {s : State} (c : Status) (hi : i ≠ .seedent) :
    ExecCase i s (s.raise c) :=
  .completes s.S s.entPort (conditionResponse c) (conditionResponse_good c) (fun _ => ⟨rfl, rfl⟩)
    (fun _ => rfl) (fun h => absurd h hi) (fun _ => rfl)

/-- A bounded command after its operand test. -/
theorem ExecCase.sample_case {i : Instr} {s : State} (b : Half) (f : Half → Half)
    (hm : Instr.mayWait i) (hi : i ≠ .seedent)
    (hr : ¬ (i = .getstate ∨ (∃ a b, i = .add64 a b) ∨ ∃ a b, i = .wmul64 a b)) :
    ExecCase i s (s.sampleBounded b f) := by
  rcases s.sampleBounded_cases b f with ⟨s', r, -, h⟩ | ⟨-, h⟩
  · rw [h]; exact .ok_case s' _ _ hi (fun h => absurd h hr)
  · rw [h]; exact .rejects hm hi

/-- Every command answers a next state, in one of the ways of `ExecCase`. -/
theorem exec_cases (i : Instr) (s : State) : ∃ t, exec i s = .next t ∧ ExecCase i s t := by
  cases i with
  | add64 a b => exact ⟨_, rfl, .ok_case s.S _ _ (by simp) (fun _ => rfl)⟩
  | wmul64 a b => exact ⟨_, rfl, .ok_case s.S _ _ (by simp) (fun _ => rfl)⟩
  | next64 => exact ⟨_, rfl, .ok_case _ _ _ (by simp) (by simp)⟩
  | fnext64 => exact ⟨_, rfl, .ok_case _ _ _ (by simp) (by simp)⟩
  | seed64 v => exact ⟨_, rfl, .ok_case _ _ _ (by simp) (by simp)⟩
  | seed32x2 lo hi => exact ⟨_, rfl, .ok_case _ _ _ (by simp) (by simp)⟩
  | setstate n lo hi =>
    refine ⟨_, rfl, ?_⟩
    split
    · exact .ok_case _ _ _ (by simp) (by simp)
    · exact .raise_case _ (by simp)
  | getstate => exact ⟨_, rfl, .ok_case s.S _ _ (by simp) (fun _ => rfl)⟩
  | seedent =>
    refine ⟨_, rfl, ?_⟩
    rcases s.seedFromEntropy_cases with ⟨e0, e1, rest, he, h⟩ | ⟨he, h⟩
    · rw [h]
      exact .completes (joinHalves e0 e1) rest (okResponse 0 0) (okResponse_good 0 0)
        (fun h => absurd rfl h) (fun h => absurd rfl h) (fun _ => ⟨e0, e1, he, rfl, rfl⟩) (by simp)
    · rw [h]; exact .waits rfl he
  | next32 => exact ⟨_, rfl, .ok_case _ _ _ (by simp) (by simp)⟩
  | bool => exact ⟨_, rfl, .ok_case _ _ _ (by simp) (by simp)⟩
  | unitdbl => exact ⟨_, rfl, .ok_case _ _ _ (by simp) (by simp)⟩
  | bounded b =>
    refine ⟨_, rfl, ?_⟩
    split
    · exact .raise_case _ (by simp)
    · next h => exact .sample_case b id h (by simp) (by simp)
  | range lo hi =>
    refine ⟨_, rfl, ?_⟩
    split
    · exact .raise_case _ (by simp)
    · next h => exact .sample_case _ _ (BitVec.not_le.mp h) (by simp) (by simp)
  | choose b =>
    refine ⟨_, rfl, ?_⟩
    split
    · exact .raise_case _ (by simp)
    · next h => exact .sample_case b id h (by simp) (by simp)

/-- `exec` answering `t` is `ExecCase`. -/
theorem exec_next_cases {i : Instr} {s t : State} (h : exec i s = .next t) : ExecCase i s t := by
  obtain ⟨u, hu, hc⟩ := exec_cases i s
  rw [hu] at h
  cases h
  exact hc

/-! ### The step -/

/-- What a step can be: in the last two a command executes. -/
inductive StepCase (s : State) : State → Prop
  | resets (h : s.rst = true) : StepCase s s.applyReset
  | takes (r : Response) (h : s.rst = false) (ha : s.activity = .responding r)
      (ready : s.rspReady = true) : StepCase s (s.takeResponse r)
  | holds (r : Response) (h : s.rst = false) (ha : s.activity = .responding r)
      (ready : s.rspReady = false) : StepCase s s
  | quiet (h : s.rst = false) (ha : s.activity = .idle) (hc : s.cmdPort = []) : StepCase s s
  | continues (w : CmdWord) (t : State) (h : s.rst = false)
      (ha : s.activity = .executing w) (ht : execWord w s = .next t) : StepCase s t
  | starts (w : CmdWord) (rest : List CmdWord) (t : State) (h : s.rst = false)
      (ha : s.activity = .idle) (hc : s.cmdPort = w :: rest)
      (ht : execWord w (s.accept w rest) = .next t) : StepCase s t

/-- A word executes as the command it encodes, or is illegal. -/
theorem execWord_cases {w : CmdWord} {s t : State} (h : execWord w s = .next t) :
    (∃ i, decode w = .ok i ∧ exec i s = .next t) ∨
      (∃ e, decode w = .error e ∧ t = s.raise .illegalCommand) := by
  unfold execWord at h
  split at h
  · next i hi => exact .inl ⟨i, hi, h⟩
  · next e he => exact .inr ⟨e, he, by cases h; rfl⟩

/-- A `SEEDENT` with an unanswered draw: executing its word changes nothing. -/
theorem execWord_of_drawUnanswered {s : State} {w : CmdWord}
    (ha : s.activity = .executing w) (h : s.drawUnanswered = true) : execWord w s = .next s := by
  rw [execWord, ((s.drawUnanswered_iff ha).mp h).1]
  simp only [exec, execSeedent, State.seedFromEntropy_of_drawUnanswered h]

/-- Where the block has a step, it is the machine's. -/
theorem step_of_blockStep {s : State} {o : Host.Outcome State Fault Refusal}
    (h : blockStep s = some o) : step s = o := by
  rw [step, h]; rfl

/-- Where the block has no step, nothing happens. -/
theorem step_of_no_blockStep {s : State} (h : blockStep s = none) : step s = .next s := by
  rw [step, h]; rfl

/-- A `SEEDENT` with an unanswered draw is stuck (R114). -/
theorem blockStep_of_drawUnanswered {s : State} {w : CmdWord} (hr : s.rst = false)
    (ha : s.activity = .executing w) (h : s.drawUnanswered = true) : blockStep s = none := by
  simp [blockStep, State.phase, hr, ha, h]

/-- Every other command in flight has a step. -/
theorem blockStep_of_executing {s : State} {w : CmdWord} (hr : s.rst = false)
    (ha : s.activity = .executing w) (h : s.drawUnanswered = false) :
    blockStep s = some (execWord w s) := by
  simp [blockStep, State.phase, hr, ha, h]

/-- The step of an idle block that is offered `w`. -/
theorem step_of_offers {s : State} {w : CmdWord} {rest : List CmdWord} (h : s.Offers w rest) :
    step s = execWord w (s.accept w rest) := by
  obtain ⟨⟨ha, hr⟩, hc⟩ := h
  simp [step, blockStep, State.phase, hr, ha, hc]

/-- The step of a block with `w` in flight and no response. -/
theorem step_of_executing {s : State} {w : CmdWord} (hr : s.rst = false)
    (ha : s.activity = .executing w) : step s = execWord w s := by
  cases h : s.drawUnanswered
  · exact step_of_blockStep (blockStep_of_executing hr ha h)
  · rw [step_of_no_blockStep (blockStep_of_drawUnanswered hr ha h), execWord_of_drawUnanswered ha h]

/-- What a step that answers `t` did. -/
theorem step_next_cases {s t : State} (h : step s = .next t) : StepCase s t := by
  rcases s.phase_cases with ⟨hr, hp⟩ | ⟨hr, r, ha, hp⟩ | ⟨hr, w, ha, -⟩ | ⟨hr, ha, hc, hp⟩ |
    ⟨hr, ha, w, rest, hc, hp⟩
  · rw [step, blockStep, hp] at h
    cases h
    exact .resets hr
  · rw [step, blockStep, hp] at h
    rcases s.offerResponse_cases r with ⟨hy, he⟩ | ⟨hn, he⟩ <;> simp only [he] at h <;> cases h
    · exact .takes r hr ha hy
    · exact .holds r hr ha hn
  · exact .continues w t hr ha (step_of_executing hr ha ▸ h)
  · rw [step, blockStep, hp] at h
    cases h
    exact .quiet hr ha hc
  · exact .starts w rest t hr ha hc (step_of_offers ⟨⟨ha, hr⟩, hc⟩ ▸ h)

end Sys2Proof.Machine
end

