-- ==== Sys2Proof/Machine/Asm.lean ====
section
/-! DEFINITION. The assembler syntax of `30_encoding.md` R62: one command per line, a mnemonic in
capitals, then operands separated by commas, each a decimal or `0x` hexadecimal literal with optional
`_` separators; `;` starts a comment (log 15). A line is a list of characters. -/

namespace Sys2Proof.Machine

/-- A command's name as the table spells it (R56). -/
def mnemonicText : Mnemonic → List Char
  | .add64 => ['A', 'D', 'D', '6', '4']
  | .wmul64 => ['W', 'M', 'U', 'L', '6', '4']
  | .next64 => ['N', 'E', 'X', 'T', '6', '4']
  | .fnext64 => ['F', 'N', 'E', 'X', 'T', '6', '4']
  | .seed64 => ['S', 'E', 'E', 'D', '6', '4']
  | .seed32x2 => ['S', 'E', 'E', 'D', '3', '2', 'X', '2']
  | .setstate => ['S', 'E', 'T', 'S', 'T', 'A', 'T', 'E']
  | .getstate => ['G', 'E', 'T', 'S', 'T', 'A', 'T', 'E']
  | .seedent => ['S', 'E', 'E', 'D', 'E', 'N', 'T']
  | .next32 => ['N', 'E', 'X', 'T', '3', '2']
  | .bool => ['B', 'O', 'O', 'L']
  | .unitdbl => ['U', 'N', 'I', 'T', 'D', 'B', 'L']
  | .bounded => ['B', 'O', 'U', 'N', 'D', 'E', 'D']
  | .range => ['R', 'A', 'N', 'G', 'E']
  | .choose => ['C', 'H', 'O', 'O', 'S', 'E']

/-- The value of a digit in a base up to 16; capitals and small letters alike. -/
def digitValue (base : Nat) (c : Char) : Option Nat :=
  let n := c.toNat
  let v :=
    if 48 ≤ n ∧ n ≤ 57 then n - 48
    else if 65 ≤ n ∧ n ≤ 70 then n - 55
    else if 97 ≤ n ∧ n ≤ 102 then n - 87
    else 16
  if v < base then some v else none

/-- The digits of a literal after the digits whose value is `acc`. -/
def digitsValue (base : Nat) : Nat → List Char → Option Nat
  | acc, [] => some acc
  | acc, c :: cs => (digitValue base c).bind fun v => digitsValue base (acc * base + v) cs

/-- The value of one or more digits; separators `_` have no value (R11, R62). -/
def numeral (base : Nat) (cs : List Char) : Option Nat :=
  match cs.filter (· != '_') with
  | [] => none
  | ds => digitsValue base 0 ds

/-- A literal: decimal, or hexadecimal after `0x` (R62). -/
def literalValue (cs : List Char) : Option Nat :=
  match cs with
  | '0' :: 'x' :: ds => numeral 16 ds
  | ds => numeral 10 ds

/-- The part of a line before its comment (R62). -/
def beforeComment (cs : List Char) : List Char := cs.takeWhile (· != ';')

/-- The text without the blanks at its ends. -/
def trimBlanks (cs : List Char) : List Char :=
  ((cs.dropWhile (· == ' ')).reverse.dropWhile (· == ' ')).reverse

/-- The pieces of a text between its commas; at least one. -/
def splitCommas : List Char → List (List Char)
  | [] => [[]]
  | c :: cs =>
    match splitCommas cs with
    | [] => [[c]]
    | p :: ps => if c = ',' then [] :: p :: ps else (c :: p) :: ps

/-- The literals of an operand field; none when one of them is no literal. -/
def operandValues (cs : List Char) : Option (List Nat) :=
  match trimBlanks cs with
  | [] => some []
  | t => (splitCommas t).mapM fun p => literalValue (trimBlanks p)

/-- A line as a source command: its name is the text up to the first blank. -/
def parseLine (line : List Char) : Option SourceCmd :=
  let t := trimBlanks (beforeComment line)
  let name := t.takeWhile (· != ' ')
  (Mnemonic.all.find? fun m => mnemonicText m == name).bind fun m =>
    (operandValues (t.dropWhile (· != ' '))).map fun ops => ⟨m, ops⟩

/-- A line assembled to its command word; none when it is no command, and never with an operand
truncated (R62). -/
def assembleLine (line : List Char) : Option CmdWord :=
  (parseLine line).bind fun c => c.assemble.map encode

/-- A status as a listing names it (R62, R156). -/
def Status.text : Status → String
  | .ok => "OK"
  | .invalidSeedShape => "InvalidSeedShape"
  | .invalidRange => "InvalidRange"
  | .emptyCollection => "EmptyCollection"
  | .illegalCommand => "IllegalCommand"

/-- A digit as a listing writes it, letters in capitals. -/
def hexDigit (n : Nat) : Char := Char.ofNat (if n < 10 then 48 + n else 55 + n)

/-- The `<hex>` of a result in a listing. The form is a DESIGN CHOICE (log 15): R62 gives none, and the
spec shows both all sixteen digits (R110) and fewer (R144); the model writes `0x` and all sixteen, in
capitals. -/
def resultText (v : Word) : String :=
  "0x" ++ String.ofList ((List.range 16).reverse.map fun k => hexDigit (v.toNat / 16 ^ k % 16))

/-- A response as a listing writes it after the arrow: the results it uses in hexadecimal, or the
condition's name (R62; the form of the numbers: log 15). -/
def Response.text (r : Response) (usesR1 : Bool) : String :=
  match r.status with
  | .ok =>
    "OK R0=" ++ resultText r.r0 ++ (if usesR1 then " R1=" ++ resultText r.r1 else "")
  | e => e.text

end Sys2Proof.Machine
end

