-- ==== Sys2Proof/Tests/Slice0.lean ====
section
/-! SUPPORT. Tests on fixed values, taken from `95_test_vectors.md` or computed by hand from the
rules, and for every statement with hypotheses a concrete case that meets them. -/

namespace Sys2Proof.Tests

open Sys2Proof.Machine

/-! ### Helpers -/

/-- An idle block with the scenario seed in `S` and a ready host. -/
def base : State where
  S := 0x8765432112345678
  activity := .idle
  rst := false
  rspReady := true
  cmdPort := []
  entPort := []
  taken := []
  resets := 0

/-- The idle block, offered one word. -/
def offered (w : CmdWord) : State := base.offer w

/-- The status, the results and `S` when the step of a block offered `w` leaves a response. -/
def answer (s : State) : Option (Status × Word × Word × Word) :=
  match step s with
  | .next t =>
    match t.activity with
    | .responding r => some (r.status, r.r0, r.r1, t.S)
    | _ => none
  | _ => none

/-- The word the response port carries after that step. -/
def answerWord (w : CmdWord) : Option RspWord :=
  match step (offered w) with
  | .next t => t.rspOffered
  | _ => none

/-! ### Decoding: the word of every command, from the encodings of section 3 of `30_encoding.md` -/

theorem test_decode_add64 : decode 0x01000000000000000001FFFFFFFFFFFFFFFF#144
    = .ok (.add64 0xFFFFFFFFFFFFFFFF#64 1#64) := by decide

theorem test_decode_wmul64 : decode 0x020000000000000000030000000000000002#144
    = .ok (.wmul64 2#64 3#64) := by decide

theorem test_decode_next64 : decode 0x100000000000000000000000000000000000#144 = .ok .next64 := by
  decide

theorem test_decode_fnext64 : decode 0x110000000000000000000000000000000000#144 = .ok .fnext64 := by
  decide

theorem test_decode_seed64 : decode 0x200000000000000000008765432112345678#144
    = .ok (.seed64 0x8765432112345678#64) := by decide

theorem test_decode_seed32x2 : decode 0x210000000000876543210000000012345678#144
    = .ok (.seed32x2 0x12345678#32 0x87654321#32) := by decide

theorem test_decode_setstate : decode 0x220300000000876543210000000012345678#144
    = .ok (.setstate 3#8 0x12345678#32 0x87654321#32) := by decide

theorem test_decode_getstate : decode 0x230000000000000000000000000000000000#144
    = .ok .getstate := by decide

theorem test_decode_seedent : decode 0x240000000000000000000000000000000000#144
    = .ok .seedent := by decide

theorem test_decode_next32 : decode 0x300000000000000000000000000000000000#144 = .ok .next32 := by
  decide

theorem test_decode_bool : decode 0x310000000000000000000000000000000000#144 = .ok .bool := by
  decide

theorem test_decode_unitdbl : decode 0x320000000000000000000000000000000000#144
    = .ok .unitdbl := by decide

theorem test_decode_bounded : decode 0x400000000000000000000000000080000001#144
    = .ok (.bounded 0x80000001#32) := by decide

theorem test_decode_range : decode 0x4100000000000000000F0000000000000005#144
    = .ok (.range 5#32 15#32) := by decide

theorem test_decode_choose : decode 0x420000000000000000000000000000000003#144
    = .ok (.choose 3#32) := by decide

/-- The numbering of `opcode_table.json`: bit 0 is the least significant bit of the one word. -/
theorem test_decode_table_word : decodeTableWord 144 0x4100000000000000000F0000000000000005
    = some (.range 5#32 15#32) ∧ decodeTableWord 144 0x010100000000000000010000000000000001 = none := by
  decide

/-! ### Well-formedness: an ill-formed term for each check, and the check refuses it -/

theorem test_wf_reserved_op : CmdWord.opDefined 0x030000000000000000000000000000000000#144 = false ∧
    CmdWord.wellFormed 0x030000000000000000000000000000000000#144 = false := by decide

theorem test_wf_reserved_n : CmdWord.opDefined 0x010100000000000000010000000000000001#144 = true ∧
    CmdWord.wellFormed 0x010100000000000000010000000000000001#144 = false := by decide

theorem test_wf_reserved_b : CmdWord.wellFormed 0x200000000000000000010000000000000005#144 = false := by
  decide

theorem test_wf_reserved_b_high : CmdWord.wellFormed 0x220300000001000000000000000000000000#144
    = false := by decide

theorem test_wf_reserved_a_high : CmdWord.wellFormed 0x400000000000000000000000000100000000#144
    = false := by decide

theorem test_wf_source_arity : SourceCmd.arityOk ⟨.add64, [1]⟩ = false ∧
    SourceCmd.wellFormed ⟨.getstate, [0]⟩ = false := by decide

theorem test_wf_source_width : SourceCmd.operandsFit ⟨.bounded, [2 ^ 32]⟩ = false ∧
    SourceCmd.wellFormed ⟨.setstate, [256, 0, 0]⟩ = false ∧
    SourceCmd.wellFormed ⟨.setstate, [255, 0, 0]⟩ = true := by decide

/-! ### Assembler lines (R62) -/

theorem test_asm_range : assembleLine "RANGE 5, 0xF ; a comment".toList
    = some 0x4100000000000000000F0000000000000005#144 := by decide

theorem test_asm_separators : assembleLine "SEED64 0x8765_4321_1234_5678".toList
    = some 0x200000000000000000008765432112345678#144 := by decide

theorem test_asm_never_truncates : assembleLine "BOUNDED 0x1_0000_0000".toList = none ∧
    assembleLine "GETSTATE".toList = some 0x230000000000000000000000000000000000#144 := by decide

/-- The example of R110. -/
theorem test_response_text : Response.text ⟨.ok, 0x8AF1BAA7#64, 0x27DB6085#64⟩ true
    = "OK R0=0x000000008AF1BAA7 R1=0x0000000027DB6085" := by decide

/-! ### Commands that no parameter touches: the `ANY` vectors, through one step -/

theorem test_add64_wraps : answer (offered 0x01000000000000000001FFFFFFFFFFFFFFFF#144)
    = some (.ok, 0, 0, 0x8765432112345678) := by decide

theorem test_wmul64_largest : answerWord 0x0200FFFFFFFFFFFFFFFFFFFFFFFFFFFFFFFF#144
    = some 0x00FFFFFFFFFFFFFFFE0000000000000001#136 := by decide

theorem test_seed64 : answer (offered 0x20000000000000000000FFFFFFFFFFFFFFFF#144)
    = some (.ok, 0, 0, 0xFFFFFFFFFFFFFFFF) := by decide

theorem test_seed32x2_low_first : answer (offered 0x210000000000123456780000000087654321#144)
    = some (.ok, 0, 0, 0x1234567887654321) := by decide

theorem test_setstate : answer (offered 0x22020000000027DB6085000000008AF1BAA7#144)
    = some (.ok, 0, 0, 0x27DB60858AF1BAA7) := by decide

theorem test_setstate_shape : answerWord 0x220300000000000000020000000000000001#144
    = some 0x0100000000000000000000000000000000#136 := by decide

theorem test_getstate : answerWord 0x230000000000000000000000000000000000#144
    = some 0x0000000000876543210000000012345678#136 := by decide

/-- By hand from R113: the first value is the low half, the third stays on the port. -/
theorem test_seedent : step { offered 0x240000000000000000000000000000000000#144 with
      entPort := [0x11111111#32, 0x22222222#32, 0x33333333#32] }
    = .next { base with
        S := 0x2222222211111111#64
        activity := .responding ⟨.ok, 0, 0⟩
        entPort := [0x33333333#32] } := rfl

/-- By hand from R114: one value is no response, `S` stays. -/
theorem test_seedent_waits : answer { offered 0x240000000000000000000000000000000000#144 with
    entPort := [0x11111111#32] } = none := by decide

theorem test_bounded_zero : answerWord 0x400000000000000000000000000000000000#144
    = some 0x0200000000000000000000000000000000#136 := by decide

theorem test_range_empty : answerWord 0x41000000000000000005000000000000000F#144
    = some 0x0200000000000000000000000000000000#136 := by decide

theorem test_choose_zero : answer (offered 0x420000000000000000000000000000000000#144)
    = some (.emptyCollection, 0, 0, 0x8765432112345678) := by decide

theorem test_illegal_reserved_op : answerWord 0x000200000000000000050000000000000007#144
    = some 0xFF00000000000000000000000000000000#136 := by decide

/-- The reserved bit comes before the component count (R164). -/
theorem test_illegal_priority : answer (offered 0x220300000001000000000000000000000000#144)
    = some (.illegalCommand, 0, 0, 0x8765432112345678) := by decide

/-- By hand from R175 and R177: the response is dropped, `S` is the second reset's value. -/
theorem test_reset_event : step { base with rst := true, activity := .responding ⟨.ok, 1, 2⟩ }
    = .next { base with S := Config.sReset 1, resets := 1 } := rfl

/-! ### Functions of the parameters: the `REF` vectors, on the reference instance of R10 -/

theorem test_ref_constants : Config.reference.c1 = 0xA0761D6478BD642F#64 ∧
    Config.reference.c2 = 0xE7037ED1A0B428DB#64 := by decide

theorem test_next64_step : stepPrecise Config.reference 0x8765432112345678#64
    = (0x27DB60858AF1BAA7#64, 0x1E37F849B64E0A36#64) := by decide

theorem test_fnext64_step : stepFast Config.reference 0x8765432112345678#64
    = (0x27DB60858AF1BAA7#64, 0x66C90FDFCE30ADE0#64) := by decide

theorem test_next32_low_half : next32 Config.reference 0x8765432112345678#64
    = (0x27DB60858AF1BAA7#64, 0xB64E0A36#32) := by decide

/-- The third step of section 2.3. -/
theorem test_bool_bit : nextBool Config.reference 0xC8517DEA03AF1ED6#64
    = (0x68C79B4E7C6C8305#64, true) := by decide

theorem test_unitdbl_double : nextDouble Config.reference 0x8765432112345678#64
    = (0x27DB60858AF1BAA7#64, 0x3FBE37F849B64E08#64) := by decide

theorem test_dbl53_corners : dbl53 (top53 0x00000000000007FF#64) = 0#64 ∧
    dbl53 (top53 0x0000000000001800#64) = 0x3CB8000000000000#64 ∧
    dbl53 (top53 0xFFFFFFFFFFFFFFFF#64) = 0x3FEFFFFFFFFFFFFF#64 := by decide

theorem test_thresholds : threshold 0x80000001#32 = 0x7FFFFFFF#32 ∧
    threshold 0x3E8#32 = 0x128#32 ∧ threshold 0x80000000#32 = 0#32 := by decide

theorem test_bounded_first_draw : bounded Config.reference 0x8765432112345678#64 10#32
    = some (0x27DB60858AF1BAA7#64, 7#32) := by decide

/-- V-REJ: two draws rejected, the third accepted. -/
theorem test_bounded_rejects : bounded Config.reference 0x27DB60858AF1BAA7#64 0x80000001#32
    = some (0x093DB8B2F529E734#64, 0x5E70DC8B#32) := by decide

/-- The middle sum carries 2 into the high half. -/
theorem test_limb_carry : limbMul64 0xFFFFFFFEFFFFFFFE#64 0xAAAAAAAAAAAAAAAA#64
    = (0x00000000AAAAAAAC#64, 0xAAAAAAA9FFFFFFFE#64) ∧
    (partials 0xFFFFFFFEFFFFFFFE#64 0xAAAAAAAAAAAAAAAA#64).mid = 0x200000000 := by decide

/-! ### Witnesses: concrete cases that meet the hypotheses of the statements -/

/-- The idle block offered `w` meets `Offers`. -/
theorem offered_offers (w : CmdWord) : (offered w).Offers w [] := ⟨⟨rfl, rfl⟩, rfl⟩

/-- The word of `SEEDENT`. -/
def seedentWord : CmdWord := 0x240000000000000000000000000000000000#144

/-- The word of `BOUNDED 1`. -/
def boundedOneWord : CmdWord := 0x400000000000000000000000000000000001#144

/-- A block with a word in flight and entropy on its port. -/
def inFlight (w : CmdWord) (ent : List Half) : State :=
  { base with activity := .executing w, entPort := ent }

/-- Two blocks equal in `S` and entropy, different in everything else. -/
def other : State := { base with rspReady := false, taken := [⟨.ok, 1, 2⟩], resets := 7 }

/-- A block with an unfinished `SEEDENT` in flight meets the invariant. -/
theorem inFlight_inv : (inFlight seedentWord [1#32]).Inv where
  waiting := by
    intro w h
    cases h
    exact ⟨.seedent, test_decode_seedent, trivial⟩
  pending := fun r h => nomatch h
  taken := fun r h => nomatch h

theorem accepts_one (x : Half) : Accepts 1#32 x := accepts_of_threshold_zero (by decide) x

/-- Draw 0 is the first accepted one of bound 1, from every state and for all parameters. -/
theorem firstAccepted_one (p : Params) (s : Word) : FirstAccepted p s 1#32 0 :=
  ⟨accepts_one _, fun j h => absurd h (Nat.not_lt_zero j)⟩

/-- The engine completes for bound 1, with result 0. -/
theorem bounded_one (p : Params) (s : Word) : bounded p s 1#32 = some ((next32 p s).1, 0#32) := by
  rw [bounded_of_accepts_first (accepts_one _)]
  have h := candidateHigh_lt (b := 1#32) (by decide) (next32 p s).2
  have : candidateHigh (next32 p s).2 1#32 = 0#32 := by
    apply BitVec.eq_of_toNat_eq
    rw [BitVec.lt_def] at h
    simp only [BitVec.toNat_ofNat] at h ⊢
    omega
  rw [this]

theorem exec_bounded_one (s : State) : exec (.bounded 1#32) s
    = .next ((s.withS (next32 Config.params s.S).1).respond .ok 0 0) := by
  simp only [exec, execBounded, State.sampleBounded, bounded_one]
  rfl

theorem exec_choose_one (s : State) : exec (.choose 1#32) s
    = .next ((s.withS (next32 Config.params s.S).1).respond .ok 0 0) := by
  simp only [exec, execChoose, State.sampleBounded, bounded_one]
  rfl

theorem issue_bounded_one (s : State) : ∃ t, issue (.bounded 1#32) s = some (⟨.ok, 0, 0⟩, t) := by
  rw [issue, exec_bounded_one]
  exact ⟨_, rfl⟩

theorem issue_choose_one (s : State) : ∃ t, issue (.choose 1#32) s = some (⟨.ok, 0, 0⟩, t) := by
  rw [issue, exec_choose_one]
  exact ⟨_, rfl⟩

theorem witness_EncodeDecodeRoundTrip : ∃ w i, decode w = .ok i :=
  ⟨0x01000000000000000001FFFFFFFFFFFFFFFF#144, _, test_decode_add64⟩

theorem witness_DecodeAgreesWithOpcodeMap : ∃ w i r, decode w = .ok i ∧ r ∈ opcodeRows ∧
    w &&& r.mask = r.pattern :=
  ⟨0x4100000000000000000F0000000000000005#144, .range 5#32 15#32,
    ⟨.range, 0x410000000000000000000000000000000000#144,
      0xFFFFFFFFFFFF00000000FFFFFFFF00000000#144⟩, by decide⟩

theorem witness_ResponseWordRoundTrip : ∃ w r, Response.ofWord w = some r :=
  ⟨0x0200000000000000000000000000000000#136, ⟨.invalidRange, 0, 0⟩, by decide⟩

theorem witness_AssemblerNeverTruncates : ∃ src i, SourceCmd.assemble src = some i :=
  ⟨⟨.setstate, [255, 0, 2 ^ 32 - 1]⟩, .setstate 255 0 0xFFFFFFFF, by decide⟩

theorem witness_StepRunsDecodedCommand_offered : ∃ s w rest i, State.Offers s w rest ∧
    decode w = .ok i :=
  ⟨_, 0x4100000000000000000F0000000000000005#144, _, _, offered_offers _, test_decode_range⟩

theorem witness_StepRunsDecodedCommand_inFlight : ∃ (s : State) (w : CmdWord) (i : Instr),
    s.rst = false ∧ s.activity = .executing w ∧ decode w = .ok i :=
  ⟨inFlight seedentWord [], seedentWord, .seedent, rfl, rfl, test_decode_seedent⟩

theorem witness_IllegalCommandAnswered : ∃ s w rest, State.Offers s w rest ∧
    CmdWord.wellFormed w = false :=
  ⟨_, 0x220300000001000000000000000000000000#144, _, offered_offers _, test_wf_reserved_b_high⟩

theorem witness_ResponseHeldUntilTaken_taken : ∃ (s : State) (r : Response), s.rst = false ∧
    s.activity = .responding r ∧ s.rspReady = true :=
  ⟨{ base with activity := .responding ⟨.ok, 1, 2⟩ }, ⟨.ok, 1, 2⟩, rfl, rfl, rfl⟩

theorem witness_ResponseHeldUntilTaken_held : ∃ (s : State) (r : Response), s.rst = false ∧
    s.activity = .responding r ∧ s.rspReady = false :=
  ⟨{ other with activity := .responding ⟨.ok, 1, 2⟩ }, ⟨.ok, 1, 2⟩, rfl, rfl, rfl⟩

theorem witness_IdleBlockKeepsState : base.Idle ∧ base.cmdPort = [] := ⟨⟨rfl, rfl⟩, rfl⟩

theorem witness_NoAcceptanceWhileInFlight_accepts : ∃ t,
    step (offered seedentWord) = .next t ∧ (offered seedentWord).cmdPort = seedentWord :: t.cmdPort :=
  ⟨{ base with activity := .executing seedentWord }, rfl, rfl⟩

theorem witness_NoAcceptanceWhileInFlight_waits : ∃ s t : State, s.cmdPort ≠ [] ∧
    step s = .next t ∧ t.cmdPort = s.cmdPort :=
  ⟨{ offered seedentWord with activity := .executing seedentWord }, _, by decide, rfl, rfl⟩

theorem witness_ConditionsLeaveStateAlone : ∃ (s t : State) (r : Response), s.rst = false ∧
    (∀ q, s.activity ≠ .responding q) ∧ step s = .next t ∧ t.activity = .responding r ∧
    r.status ≠ .ok :=
  ⟨offered 0x420000000000000000000000000000000000#144, _, ⟨.emptyCollection, 0, 0⟩, rfl,
    fun _ => nofun, rfl, rfl, by decide⟩

theorem witness_EntropyTakenOnlyBySeedent_untouched : ∃ t, step base = .next t ∧
    t.entPort = base.entPort := ⟨base, rfl, rfl⟩

theorem witness_EntropyTakenOnlyBySeedent_seedent : ∃ s t : State, step s = .next t ∧
    s.entPort = 1#32 :: 2#32 :: t.entPort :=
  ⟨inFlight seedentWord [1#32, 2#32], _, rfl, rfl⟩

theorem witness_EntropyTakenOnlyBySeedent_reset : ∃ (s : State) (w : CmdWord), s.rst = false ∧
    s.activity = .executing w ∧ decode w = .ok .seedent ∧ s.entPort = [1#32] :=
  ⟨inFlight seedentWord [1#32], seedentWord, rfl, rfl, test_decode_seedent, rfl⟩

theorem witness_EntropyTakenOnlyBySeedent_notTaken :
    ¬ ((inFlight seedentWord [1#32]).assertRst.rst = false ∧ ∃ w,
      (inFlight seedentWord [1#32]).assertRst.activity = .executing w ∧ decode w = .ok .seedent) := nofun

theorem witness_OnlyCompletionOrResetChangesS_command : ∃ s t : State, s.rst = false ∧
    step s = .next t ∧ t.S ≠ s.S :=
  ⟨offered 0x200000000000000000000000000000000000#144, _, rfl, rfl, by decide⟩

/-- `S_RESET` is open, so the `S` before is chosen to differ from it. -/
theorem witness_OnlyCompletionOrResetChangesS_reset : ∃ s t : State, s.rst = true ∧
    step s = .next t ∧ t.S ≠ s.S := by
  refine ⟨{ base with S := Config.sReset 1 + 1, rst := true }, _, rfl, rfl, ?_⟩
  intro h
  have : Config.sReset 1 = Config.sReset 1 + 1 := h
  simp at this

theorem witness_CommandFrame : ∃ s t, exec .getstate s = .next t := ⟨base, _, rfl⟩

theorem witness_CommandFrame_condition : ∃ (s t : State) (r : Response), exec (.choose 0) s = .next t ∧
    s.activity ≠ .responding r ∧ t.activity = .responding r ∧ r.status ≠ .ok :=
  ⟨base, _, ⟨.emptyCollection, 0, 0⟩, rfl, nofun, rfl, by decide⟩

theorem witness_CommandFrame_step : ∃ s t, exec .next64 s = .next t := ⟨base, _, rfl⟩

theorem witness_UnfinishedCommandChangesNothing : ∃ (s t : State) (w : CmdWord),
    s.activity = .executing w ∧ exec .seedent s = .next t ∧ ∀ r, t.activity ≠ .responding r :=
  ⟨inFlight seedentWord [1#32], _, seedentWord, rfl, rfl, fun _ => nofun⟩

theorem witness_ResponsesDependOnlyOnStateAndEntropy : base ≠ other ∧ base.S = other.S ∧
    base.entPort = other.entPort := ⟨by decide, rfl, rfl⟩

theorem witness_CommandRunIsFold : ∃ (cmds : List Instr) (s t : State) (rest : List CmdWord)
    (rs : List Response), cmds.length = 2 ∧ s.Idle ∧ s.rspReady = true ∧
      s.cmdPort = cmds.map encode ++ rest ∧ issueAll cmds s = some (rs, t) :=
  ⟨[.seed64 5, .getstate],
    { base with cmdPort := [Instr.seed64 5, .getstate].map encode ++ [seedentWord] }, _,
    [seedentWord], [⟨.ok, 0, 0⟩, ⟨.ok, 5, 0⟩], rfl, ⟨rfl, rfl⟩, rfl, rfl, rfl⟩

theorem witness_EveryStepKeepsInv : ∃ s t : State, s.Inv ∧ step s = .next t :=
  ⟨_, _, inFlight_inv, rfl⟩

theorem witness_HostActsKeepInv : ∃ s : State, s.Inv := ⟨_, inFlight_inv⟩

theorem witness_ResetEvent : ∃ s : State, s.rst = true ∧ s.seedentInFlight = true ∧ s.entPort ≠ [] :=
  ⟨{ inFlight seedentWord [1#32] with rst := true }, rfl, by decide, by decide⟩

theorem witness_ResetEvent_loses : (inFlight seedentWord [1#32]).entReady = true := by decide

theorem witness_ResetEvent_keeps : base.entReady = false := by decide

theorem witness_ArithmeticCommands_add64 : ∃ s w rest, State.Offers s w rest ∧
    CmdWord.op w = 0x01#8 ∧ w.n = 0 :=
  ⟨_, 0x01000000000000000001FFFFFFFFFFFFFFFF#144, _, offered_offers _, by decide⟩

theorem witness_ArithmeticCommands_wmul64 : ∃ s w rest, State.Offers s w rest ∧
    CmdWord.op w = 0x02#8 ∧ w.n = 0 :=
  ⟨_, 0x0200FFFFFFFFFFFFFFFFFFFFFFFFFFFFFFFF#144, _, offered_offers _, by decide⟩

theorem witness_RawStepCommands_next64 : ∃ s w rest, State.Offers s w rest ∧
    CmdWord.op w = 0x10#8 ∧ w.n = 0 ∧ w.b = 0 ∧ w.a = 0 :=
  ⟨_, 0x100000000000000000000000000000000000#144, _, offered_offers _, by decide⟩

theorem witness_RawStepCommands_fnext64 : ∃ s w rest, State.Offers s w rest ∧
    CmdWord.op w = 0x11#8 ∧ w.n = 0 ∧ w.b = 0 ∧ w.a = 0 :=
  ⟨_, 0x110000000000000000000000000000000000#144, _, offered_offers _, by decide⟩

theorem witness_SeedCommands_seed64 : ∃ s w rest, State.Offers s w rest ∧
    CmdWord.op w = 0x20#8 ∧ w.n = 0 ∧ w.b = 0 :=
  ⟨_, 0x200000000000000000008765432112345678#144, _, offered_offers _, by decide⟩

theorem witness_SeedCommands_seed32x2 : ∃ s w rest, State.Offers s w rest ∧
    CmdWord.op w = 0x21#8 ∧ w.n = 0 ∧ w.bHigh = 0 ∧ w.aHigh = 0 :=
  ⟨_, 0x210000000000876543210000000012345678#144, _, offered_offers _, by decide⟩

theorem witness_SetstateCommand_reserved : ∃ s w rest, State.Offers s w rest ∧
    CmdWord.op w = 0x22#8 ∧ w.bHigh ≠ 0 :=
  ⟨_, 0x220300000001000000000000000000000000#144, _, offered_offers _, by decide⟩

theorem witness_SetstateCommand_shape : ∃ s w rest, State.Offers s w rest ∧
    CmdWord.op w = 0x22#8 ∧ w.bHigh = 0 ∧ w.aHigh = 0 ∧ w.n ≠ 2 :=
  ⟨_, 0x220300000000000000020000000000000001#144, _, offered_offers _, by decide⟩

theorem witness_SetstateCommand_restores : ∃ s w rest, State.Offers s w rest ∧
    CmdWord.op w = 0x22#8 ∧ w.bHigh = 0 ∧ w.aHigh = 0 ∧ w.n = 2 :=
  ⟨_, 0x22020000000027DB6085000000008AF1BAA7#144, _, offered_offers _, by decide⟩

theorem witness_GetstateCommand : ∃ s w rest, State.Offers s w rest ∧
    CmdWord.op w = 0x23#8 ∧ w.n = 0 ∧ w.b = 0 ∧ w.a = 0 :=
  ⟨_, 0x230000000000000000000000000000000000#144, _, offered_offers _, by decide⟩

theorem witness_SeedentCommand_reserved : ∃ s w rest, State.Offers s w rest ∧
    CmdWord.op w = 0x24#8 ∧ ¬ (w.n = 0 ∧ w.b = 0 ∧ w.a = 0) :=
  ⟨_, 0x240000000000000000000000000000000001#144, _, offered_offers _, by decide⟩

theorem witness_SeedentCommand_takes : ∃ (s : State) (w : CmdWord) (rest : List CmdWord),
    s.Offers w rest ∧ w.op = 0x24#8 ∧ (w.n = 0 ∧ w.b = 0 ∧ w.a = 0) ∧
      s.entPort = 1#32 :: 2#32 :: [] :=
  ⟨{ offered seedentWord with entPort := [1#32, 2#32] }, seedentWord, [], ⟨⟨rfl, rfl⟩, rfl⟩,
    by decide⟩

theorem witness_SeedentCommand_waits : ∃ (s : State) (w : CmdWord) (rest : List CmdWord),
    s.Offers w rest ∧ w.op = 0x24#8 ∧ (w.n = 0 ∧ w.b = 0 ∧ w.a = 0) ∧ s.entPort.length = 1 ∧
      ∃ t, step s = .next t :=
  ⟨{ offered seedentWord with entPort := [1#32] }, seedentWord, [], ⟨⟨rfl, rfl⟩, rfl⟩,
    rfl, by decide, rfl, _, rfl⟩

/-- R114: the first draw unanswered, then the second; the values need only be there. -/
theorem test_seedent_stuck : (blockStep (inFlight seedentWord [])).isNone = true ∧
    (blockStep (inFlight seedentWord [1#32])).isNone = true ∧
    (blockStep (inFlight seedentWord [1#32, 2#32])).isSome = true := by decide

/-- By hand from R175 and R177: the value that the waiting `SEEDENT` took before the assertion is lost,
the one delivered after it is not. -/
theorem test_reset_entropy :
    step ((((inFlight seedentWord []).deliver 1#32).assertRst).deliver 2#32)
      = .next { base with S := Config.sReset 1, resets := 1, entPort := [2#32] } := rfl

theorem witness_StepNeverStops_step : ∃ o, blockStep (offered seedentWord) = some o := ⟨_, rfl⟩

theorem witness_StepNeverStops_noStep : blockStep (inFlight seedentWord [1#32]) = none ∧
    blockStep base = none ∧
    blockStep { other with activity := .responding ⟨.ok, 1, 2⟩ } = none := ⟨rfl, rfl, rfl⟩

theorem witness_UnansweredCommandsWait_seedent : ∃ (s : State) (w : CmdWord),
    s.rst = false ∧ s.activity = .executing w ∧ decode w = .ok .seedent ∧ s.entPort.length < 2 :=
  ⟨inFlight seedentWord [1#32], seedentWord, rfl, rfl, test_decode_seedent, by decide⟩

theorem witness_UnansweredCommandsWait_completes : ∃ (s : State) (w : CmdWord),
    s.rst = false ∧ s.activity = .executing w ∧ decode w = .ok .seedent ∧
      s.entPort = 1#32 :: 2#32 :: [] :=
  ⟨inFlight seedentWord [1#32, 2#32], seedentWord, rfl, rfl, test_decode_seedent, rfl⟩

theorem witness_UnansweredCommandsWait_bounded : ∃ (s : State) (w : CmdWord)
    (bound : Half), s.rst = false ∧ s.activity = .executing w ∧ decode w = .ok (.bounded bound) ∧
      bound ≠ 0 :=
  ⟨inFlight boundedOneWord [], boundedOneWord, 1, rfl, rfl, by decide⟩

theorem witness_UnansweredCommandsWait_choose : ∃ (s : State) (w : CmdWord)
    (bound : Half), s.rst = false ∧ s.activity = .executing w ∧ decode w = .ok (.choose bound) ∧
      bound ≠ 0 :=
  ⟨inFlight 0x4200000000000000000000000000FFFFFFFF#144 [],
    0x4200000000000000000000000000FFFFFFFF#144, 0xFFFFFFFF#32, rfl, rfl, by decide⟩

theorem witness_UnansweredCommandsWait_range : ∃ (s : State) (w : CmdWord)
    (min max : Half), s.rst = false ∧ s.activity = .executing w ∧
      decode w = .ok (.range min max) ∧ min < max :=
  ⟨inFlight 0x410000000000000000060000000000000005#144 [],
    0x410000000000000000060000000000000005#144, 5#32, 6#32, rfl, rfl, by decide⟩

theorem witness_SeedingMeaningsComplete : ∃ s : State, s.entPort = 1#32 :: 2#32 :: [] :=
  ⟨inFlight seedentWord [1#32, 2#32], rfl⟩

theorem witness_SnapshotRoundTrip : base.entPort = other.entPort := rfl

theorem witness_FixedDrawCommands_next32 : ∃ s w rest, State.Offers s w rest ∧
    CmdWord.op w = 0x30#8 ∧ w.n = 0 ∧ w.b = 0 ∧ w.a = 0 :=
  ⟨_, 0x300000000000000000000000000000000000#144, _, offered_offers _, by decide⟩

theorem witness_FixedDrawCommands_bool : ∃ s w rest, State.Offers s w rest ∧
    CmdWord.op w = 0x31#8 ∧ w.n = 0 ∧ w.b = 0 ∧ w.a = 0 :=
  ⟨_, 0x310000000000000000000000000000000000#144, _, offered_offers _, by decide⟩

theorem witness_FixedDrawCommands_unitdbl : ∃ s w rest, State.Offers s w rest ∧
    CmdWord.op w = 0x32#8 ∧ w.n = 0 ∧ w.b = 0 ∧ w.a = 0 :=
  ⟨_, 0x320000000000000000000000000000000000#144, _, offered_offers _, by decide⟩

theorem witness_ThresholdAndCandidate : (0xFFFFFFFF#32 : Half) ≠ 0 := by decide

theorem witness_ThresholdAndCandidate_power : (0x80000000#32 : Half) ≠ 0 ∧
    (0x80000000#32 : Half).toNat = 2 ^ 31 := by decide

theorem witness_EngineReturnsFirstAccepted : (0x80000001#32 : Half) ≠ 0 := by decide

theorem witness_ExactUniformity : (0xFFFFFFFF#32 : Half) ≠ 0 ∧ (0xFFFFFFFE#32 : Half) < 0xFFFFFFFF#32 := by
  decide

theorem witness_BoundedCommand_reserved : ∃ s w rest, State.Offers s w rest ∧
    CmdWord.op w = 0x40#8 ∧ ¬ (w.n = 0 ∧ w.b = 0 ∧ w.aHigh = 0) :=
  ⟨_, 0x400100000000000000000000000000000000#144, _, offered_offers _, by decide⟩

theorem witness_BoundedCommand_zero : ∃ s w rest, State.Offers s w rest ∧
    CmdWord.op w = 0x40#8 ∧ (w.n = 0 ∧ w.b = 0 ∧ w.aHigh = 0) ∧ w.aLow = 0 :=
  ⟨_, 0x400000000000000000000000000000000000#144, _, offered_offers _, by decide⟩

theorem witness_BoundedCommand_draws : ∃ s w rest, State.Offers s w rest ∧
    CmdWord.op w = 0x40#8 ∧ (w.n = 0 ∧ w.b = 0 ∧ w.aHigh = 0) ∧ ¬ w.aLow = 0 :=
  ⟨_, boundedOneWord, _, offered_offers _, by decide⟩

theorem witness_RangeCommand_reserved : ∃ s w rest, State.Offers s w rest ∧
    CmdWord.op w = 0x41#8 ∧ ¬ (w.n = 0 ∧ w.bHigh = 0 ∧ w.aHigh = 0) :=
  ⟨_, 0x410000000000000000070000000100000007#144, _, offered_offers _, by decide⟩

theorem witness_RangeCommand_empty : ∃ s w rest, State.Offers s w rest ∧
    CmdWord.op w = 0x41#8 ∧ (w.n = 0 ∧ w.bHigh = 0 ∧ w.aHigh = 0) ∧ w.bLow.toNat ≤ w.aLow.toNat :=
  ⟨_, 0x410000000000000000070000000000000007#144, _, offered_offers _, by decide⟩

theorem witness_RangeCommand_draws : ∃ s w rest, State.Offers s w rest ∧
    CmdWord.op w = 0x41#8 ∧ (w.n = 0 ∧ w.bHigh = 0 ∧ w.aHigh = 0) ∧ ¬ w.bLow.toNat ≤ w.aLow.toNat :=
  ⟨_, 0x410000000000000000060000000000000005#144, _, offered_offers _, by decide⟩

theorem witness_ChooseCommand_reserved : ∃ s w rest, State.Offers s w rest ∧
    CmdWord.op w = 0x42#8 ∧ ¬ (w.n = 0 ∧ w.b = 0 ∧ w.aHigh = 0) :=
  ⟨_, 0x420000000000000000010000000000000003#144, _, offered_offers _, by decide⟩

theorem witness_ChooseCommand_zero : ∃ s w rest, State.Offers s w rest ∧
    CmdWord.op w = 0x42#8 ∧ (w.n = 0 ∧ w.b = 0 ∧ w.aHigh = 0) ∧ w.aLow = 0 :=
  ⟨_, 0x420000000000000000000000000000000000#144, _, offered_offers _, by decide⟩

theorem witness_ChooseCommand_draws : ∃ s w rest, State.Offers s w rest ∧
    CmdWord.op w = 0x42#8 ∧ (w.n = 0 ∧ w.b = 0 ∧ w.aHigh = 0) ∧ ¬ w.aLow = 0 :=
  ⟨_, 0x420000000000000000000000000000000001#144, _, offered_offers _, by decide⟩

theorem witness_BoundedMeaningsComplete_bounded : ∃ (bound : Half) (s : State) (k : Nat), bound ≠ 0 ∧
    FirstAccepted Config.params s.S bound k :=
  ⟨1#32, base, 0, by decide, firstAccepted_one _ _⟩

theorem witness_BoundedMeaningsComplete_range : ∃ (min max : Half) (s : State) (k : Nat), min < max ∧
    FirstAccepted Config.params s.S (max - min) k :=
  ⟨5#32, 6#32, base, 0, by decide, firstAccepted_one _ _⟩

theorem witness_OperandConditions : (3#8 : BitVec 8) ≠ 2 ∧ (7#32 : Half).toNat ≤ (7#32 : Half).toNat := by
  decide

theorem witness_OperandConditions_converse : ∃ (i : Instr) (s t : State) (r : Response),
    (∀ q, s.activity ≠ .responding q) ∧ exec i s = .next t ∧ t.activity = .responding r ∧
      r.status = .invalidRange :=
  ⟨.range 7 7, base, _, ⟨.invalidRange, 0, 0⟩, fun _ => nofun, rfl, rfl, rfl⟩

theorem witness_ShuffleIsPermutation : ∃ d t, shuffle [7] base = some (d, t) := by
  obtain ⟨t, h⟩ := issue_bounded_one base
  refine ⟨[7], t, ?_⟩
  have h' : issue (.bounded (.ofNat 32 (0 + 1))) base = some (⟨.ok, 0, 0⟩, t) := h
  rw [shuffle, if_pos (by decide)]
  simp only [List.length_singleton, shuffleFrom, h']
  rfl

theorem witness_ChooseOneReturnsAnElement : ∃ t, chooseOne [7] base = some (.ok 7, t) := by
  obtain ⟨t, h⟩ := issue_choose_one base
  refine ⟨t, ?_⟩
  have h' : issue (.choose (.ofNat 32 ([7] : List Nat).length)) base = some (⟨.ok, 0, 0⟩, t) := h
  rw [chooseOne, if_pos (by decide), h']
  rfl

theorem witness_ChooseOneReturnsAnElement_issue : ∃ r t, ([7] : List Nat).length ≤ maxCollection ∧
    issue (.choose (.ofNat 32 ([7] : List Nat).length)) base = some (r, t) := by
  obtain ⟨t, h⟩ := issue_choose_one base
  exact ⟨_, t, by decide, h⟩

theorem witness_ChooseOneReturnsAnElement_empty : ∃ r t, ([] : List Nat).length ≤ maxCollection ∧
    issue (.choose (.ofNat 32 ([] : List Nat).length)) base = some (r, t) :=
  ⟨⟨.emptyCollection, 0, 0⟩, _, by decide, rfl⟩

theorem witness_ChooseOneReturnsAnElement_accepted : ([7] : List Nat) ≠ [] ∧
    ([7] : List Nat).length ≤ maxCollection ∧
    FirstAccepted Config.params base.S (.ofNat 32 ([7] : List Nat).length) 0 :=
  ⟨by decide, by decide, firstAccepted_one _ _⟩

end Sys2Proof.Tests
end

section
/-! SUPPORT. The rows of the opcode map (`30_encoding.md` R57) as the opcodes and formats of R52 and
R56: selecting a row is having its `OP` and no reserved bit of its format, which is what `decode`
tests. -/

namespace Sys2Proof

/-! ### A command word is its four fields -/

/-- The four fields make up the whole word (R51). -/
theorem CmdWord.ofFields_fields (w : CmdWord) : CmdWord.ofFields w.op w.n w.b w.a = w := by
  apply BitVec.eq_of_toNat_eq
  rw [CmdWord.ofFields_toNat, CmdWord.op_toNat, CmdWord.n_toNat, CmdWord.b_toNat, CmdWord.a_toNat]
  omega

theorem CmdWord.eq_iff_fields {w v : CmdWord} :
    w = v ↔ w.op = v.op ∧ w.n = v.n ∧ w.b = v.b ∧ w.a = v.a := by
  constructor
  · rintro rfl
    exact ⟨rfl, rfl, rfl, rfl⟩
  · rintro ⟨hop, hn, hb, ha⟩
    rw [← w.ofFields_fields, ← v.ofFields_fields, hop, hn, hb, ha]

@[simp] theorem CmdWord.op_and (w v : CmdWord) : CmdWord.op (w &&& v) = w.op &&& v.op :=
  BitVec.extractLsb'_and

@[simp] theorem CmdWord.n_and (w v : CmdWord) : CmdWord.n (w &&& v) = w.n &&& v.n :=
  BitVec.extractLsb'_and

@[simp] theorem CmdWord.b_and (w v : CmdWord) : CmdWord.b (w &&& v) = w.b &&& v.b :=
  BitVec.extractLsb'_and

@[simp] theorem CmdWord.a_and (w v : CmdWord) : CmdWord.a (w &&& v) = w.a &&& v.a :=
  BitVec.extractLsb'_and

/-! ### The bits a format reserves, as masks -/

/-- The mask of bits 63 to 32 of a 64-bit field. -/
def highMask : Word := BitVec.allOnes 32 ++ 0#32

/-- The bits of `N` that the format reserves (R52). -/
def Format.nMask : Format → BitVec 8
  | .nww => 0
  | .z | .q | .qq | .w | .ww => BitVec.allOnes 8

/-- The bits of `B` that the format reserves (R52). -/
def Format.bMask : Format → Word
  | .z | .q | .w => BitVec.allOnes 64
  | .qq => 0
  | .ww | .nww => highMask

/-- The bits of `A` that the format reserves (R52). -/
def Format.aMask : Format → Word
  | .z => BitVec.allOnes 64
  | .q | .qq => 0
  | .w | .ww | .nww => highMask

theorem append_and_highMask_eq_zero (hi lo : Half) :
    (hi ++ lo) &&& highMask = 0#64 ↔ hi = 0#32 := by
  have hzero : 0#64 = 0#32 ++ 0#32 := by decide
  rw [highMask, BitVec.and_append, BitVec.and_allOnes, BitVec.and_zero, hzero,
    BitVec.append_left_inj]

theorem CmdWord.b_and_highMask (w : CmdWord) : w.b &&& highMask = 0#64 ↔ w.bHigh = 0#32 := by
  have hb : w.bHigh ++ w.bLow = w.b := BitVec.extractLsb'_append_extractLsb'_eq_extractLsb' rfl
  rw [← hb, append_and_highMask_eq_zero]

theorem CmdWord.a_and_highMask (w : CmdWord) : w.a &&& highMask = 0#64 ↔ w.aHigh = 0#32 := by
  have ha : w.aHigh ++ w.aLow = w.a := BitVec.extractLsb'_append_extractLsb'_eq_extractLsb' rfl
  rw [← ha, append_and_highMask_eq_zero]

/-- The masks are those of the decoder's reserved-bit test (R59). -/
theorem Format.reservedClear_iff (f : Format) (w : CmdWord) : f.reservedClear w = true ↔
    w.n &&& f.nMask = 0 ∧ w.b &&& f.bMask = 0 ∧ w.a &&& f.aMask = 0 := by
  cases f <;>
    simp [Format.reservedClear, Format.nMask, Format.bMask, Format.aMask, and_assoc,
      BitVec.and_allOnes, CmdWord.b_and_highMask, CmdWord.a_and_highMask, -BitVec.reduceAllOnes]

/-! ### The rows of the opcode map -/

/-- The row of a command: its `OP` with every other bit 0, under `OP` and the bits its format
reserves (R57). -/
def Mnemonic.row (m : Mnemonic) : OpcodeRow where
  mnemonic := m
  pattern := .ofFields m.opcode 0 0 0
  mask := .ofFields (BitVec.allOnes 8) m.format.nMask m.format.bMask m.format.aMask

/-- The table of `opcode_table.json` is the one that R52 and R56 give. -/
theorem opcodeRows_eq : opcodeRows = Mnemonic.all.map Mnemonic.row := by decide

theorem Mnemonic.mem_all (m : Mnemonic) : m ∈ Mnemonic.all := by cases m <;> decide

theorem mem_opcodeRows {r : OpcodeRow} : r ∈ opcodeRows ↔ ∃ m : Mnemonic, m.row = r := by
  simp [opcodeRows_eq, Mnemonic.mem_all]

/-- A word selects a command's row iff it passes the two tests of the decoder (R57, R61). -/
theorem Mnemonic.and_row_mask_eq_iff (m : Mnemonic) (w : CmdWord) :
    w &&& m.row.mask = m.row.pattern ↔ w.op = m.opcode ∧ m.format.reservedClear w = true := by
  simp only [Mnemonic.row, CmdWord.eq_iff_fields, CmdWord.op_and, CmdWord.n_and, CmdWord.b_and,
    CmdWord.a_and, CmdWord.op_ofFields, CmdWord.n_ofFields, CmdWord.b_ofFields, CmdWord.a_ofFields,
    BitVec.and_allOnes, Format.reservedClear_iff]

theorem Mnemonic.opcode_injective : Function.Injective Mnemonic.opcode := by
  intro m m' h
  have h' := congrArg Mnemonic.ofOpcode h
  simpa using h'

/-- A word decodes iff it selects the row of some command, and then to that command with the
operands of the word. -/
theorem decode_eq_ok_iff {w : CmdWord} {i : Instr} : decode w = .ok i ↔
    ∃ m : Mnemonic, w &&& m.row.mask = m.row.pattern ∧ i = m.withOperands w := by
  constructor
  · intro h
    obtain ⟨m, hop, hclear, hi⟩ := decode_ok_cases h
    exact ⟨m, (m.and_row_mask_eq_iff w).mpr ⟨hop, hclear⟩, hi⟩
  · rintro ⟨m, hsel, rfl⟩
    obtain ⟨hop, hclear⟩ := (m.and_row_mask_eq_iff w).mp hsel
    rw [decode_of_op hop, if_pos hclear]

/-- Two rows that one word selects have its `OP`, so they are of one command. -/
theorem Mnemonic.eq_of_and_row_mask_eq {m m' : Mnemonic} {w : CmdWord}
    (h : w &&& m.row.mask = m.row.pattern) (h' : w &&& m'.row.mask = m'.row.pattern) : m = m' := by
  have hop := ((m.and_row_mask_eq_iff w).mp h).1
  have hop' := ((m'.and_row_mask_eq_iff w).mp h').1
  exact Mnemonic.opcode_injective (hop.symm.trans hop')

/-- Settles O3: the rows are those of the commands, so the tests of `decode` and of R57 are one, and
the `OP` tells the rows apart. -/
theorem decodeAgreesWithOpcodeMap : Obligations.DecodeAgreesWithOpcodeMap := by
  unfold Obligations.DecodeAgreesWithOpcodeMap
  refine ⟨fun w => ?accepts, fun w i r hdec hr hsel => ?command, fun w r q hr hq hselr hselq => ?rows⟩
  case accepts =>
    simp only [decode_eq_ok_iff, mem_opcodeRows]
    constructor
    · rintro ⟨i, m, hsel, -⟩
      exact ⟨m.row, ⟨m, rfl⟩, hsel⟩
    · rintro ⟨r, ⟨m, rfl⟩, hsel⟩
      exact ⟨m.withOperands w, m, hsel, rfl⟩
  case command =>
    obtain ⟨m, rfl⟩ := mem_opcodeRows.mp hr
    obtain ⟨m', hsel', rfl⟩ := decode_eq_ok_iff.mp hdec
    rw [Mnemonic.withOperands_mnemonic, Mnemonic.eq_of_and_row_mask_eq hsel' hsel, Mnemonic.row]
  case rows =>
    obtain ⟨m, rfl⟩ := mem_opcodeRows.mp hr
    obtain ⟨m', rfl⟩ := mem_opcodeRows.mp hq
    rw [Mnemonic.eq_of_and_row_mask_eq hselr hselq]

end Sys2Proof
end

section
/-! SUPPORT. The arithmetic primitives of `40_arithmetic.md` as naturals, limb by limb, and the two
commands that answer with them. -/

namespace Sys2Proof

/-- The only bits that the format of two 64-bit operands reserves are those of `N` (R52). -/
theorem Format.reservedClear_qq (w : CmdWord) : Format.qq.reservedClear w = true ↔ w.n = 0 := by
  simp only [Format.reservedClear, beq_iff_eq]

end Sys2Proof

namespace Sys2Proof.Machine

/-! ### The adder (R75) -/

/-- The limb form of the adder: the low sum carries into the high sum (section 1). -/
theorem hi32_add64_toNat (a b : Word) : (hi32 (add64 a b)).toNat
    = ((hi32 a).toNat + (hi32 b).toNat + ((lo32 a).toNat + (lo32 b).toNat) / 2 ^ 32) % 2 ^ 32 := by
  simp only [hi32_toNat, lo32_toNat, add64_toNat]
  omega

theorem lo32_add64_toNat (a b : Word) :
    (lo32 (add64 a b)).toNat = ((lo32 a).toNat + (lo32 b).toNat) % 2 ^ 32 := by
  simp only [lo32_toNat, add64_toNat]
  omega

/-- Settles O27: the sum wraps, and its halves are the limb sums with one carry. -/
theorem add64WrapsAndLimbsAgree : Obligations.Add64WrapsAndLimbsAgree :=
  fun a b => ⟨add64_toNat a b, lo32_add64_toNat a b, hi32_add64_toNat a b⟩

/-! ### The widening multiplier (R77) -/

/-- The largest high half, `2^64 - 2`, is that of the largest product. -/
theorem widenMul64_snd_lt (a b : Word) : (widenMul64 a b).2.toNat < 2 ^ 64 - 1 := by
  have := product_lt a b
  rw [widenMul64_snd_toNat]
  omega

/-- Settles O28: the halves are the remainder and the quotient of the product by `2^64`. -/
theorem wideningMultiplyIsExact : Obligations.WideningMultiplyIsExact := by
  intro a b
  have hlow := widenMul64_fst_toNat a b
  have hhigh := widenMul64_snd_toNat a b
  refine ⟨hlow, hhigh, ?_, widenMul64_snd_lt a b⟩
  rw [hlow, hhigh, Nat.mod_add_div]

/-! ### The partial products and the limb algorithm (R78, R79) -/

/-- The number that four partial products stand for, by the identity of R78. -/
def Partials.value (p : Partials) : Nat :=
  p.ll.toNat + (p.lh.toNat + p.hl.toNat) * 2 ^ 32 + p.hh.toNat * 2 ^ 64

/-- The partial products of two words stand for the product of the words (R78). -/
theorem partials_value (a b : Word) : (partials a b).value = a.toNat * b.toNat := by
  rw [toNat_eq_halves a, toNat_eq_halves b]
  simp only [Partials.value, partials, mul32w_toNat]
  ring

/-- Settles O29: each partial product is exact, and the product of the sums of limbs expands to
them. -/
theorem partialProductsCompose : Obligations.PartialProductsCompose :=
  fun a b => ⟨mul32w_toNat .., mul32w_toNat .., mul32w_toNat .., mul32w_toNat ..,
    (partials_value a b).symm⟩

/-- The middle sum adds three limbs. -/
theorem Partials.mid_le (p : Partials) : p.mid ≤ 3 * (2 ^ 32 - 1) := by
  have := (lo32 p.lh).isLt
  have := (lo32 p.hl).isLt
  have := (hi32 p.ll).isLt
  unfold Partials.mid
  omega

/-- The low word of R79: the low limb of `p_ll`, below the middle sum without its carry. -/
theorem Partials.value_mod (p : Partials) :
    p.value % 2 ^ 64 = p.mid % 2 ^ 32 * 2 ^ 32 + (lo32 p.ll).toNat := by
  simp only [Partials.value, Partials.mid, lo32_toNat, hi32_toNat]
  omega

/-- The high word of R79: the carry of the middle sum enters it once. -/
theorem Partials.value_div (p : Partials) : p.value / 2 ^ 64
    = p.hh.toNat + (hi32 p.lh).toNat + (hi32 p.hl).toNat + p.mid / 2 ^ 32 := by
  simp only [Partials.value, Partials.mid, lo32_toNat, hi32_toNat]
  omega

/-- The high sum of R79 is the high half of the exact product. -/
theorem partials_highSum (a b : Word) :
    (partials a b).hh.toNat + (hi32 (partials a b).lh).toNat + (hi32 (partials a b).hl).toNat
      + (partials a b).mid / 2 ^ 32 = (widenMul64 a b).2.toNat := by
  rw [← Partials.value_div, partials_value, widenMul64_snd_toNat]

theorem limbMul64_fst (a b : Word) : (limbMul64 a b).1 = (widenMul64 a b).1 := by
  apply BitVec.eq_of_toNat_eq
  rw [widenMul64_fst_toNat, ← partials_value, Partials.value_mod]
  simp only [limbMul64, joinHalves_toNat, BitVec.toNat_ofNat]

theorem limbMul64_snd (a b : Word) : (limbMul64 a b).2 = (widenMul64 a b).2 := by
  simp only [limbMul64, partials_highSum, BitVec.ofNat_toNat, BitVec.setWidth_eq]

/-- Settles O30: the two words of the limb algorithm are the remainder and the quotient of the
product by `2^64`, so the high sum fits. -/
theorem limbAlgorithmEqualsMultiply : Obligations.LimbAlgorithmEqualsMultiply := by
  intro a b
  refine ⟨Prod.ext (limbMul64_fst a b) (limbMul64_snd a b), Partials.mid_le _, ?_⟩
  rw [partials_highSum]
  exact BitVec.isLt _

/-! ### The narrow multiplier (R82) -/

/-- Settles O31: the narrow product fits in 64 bits, so it is its own low half. -/
theorem narrowMultiplyIsExact : Obligations.NarrowMultiplyIsExact := by
  intro x y
  refine ⟨mul32w_toNat x y, ?_⟩
  simp only [mul32w, widenMul64, zext64_toNat]

/-! ### An offered word (R37, R61) -/

/-- Accepting a word and responding to it is what `State.answered` says. -/
theorem State.accept_respond (s : State) (w : CmdWord) (rest : List CmdWord) (c : Status)
    (r0 r1 : Word) : (s.accept w rest).respond c r0 r1 = s.answered rest s.S ⟨c, r0, r1⟩ := rfl

/-- What the block does with an offered word that has the `OP` of a command (R60, R61). -/
theorem step_of_offers_op {s : State} {w : CmdWord} {rest : List CmdWord} {m : Mnemonic}
    (h : s.Offers w rest) (hop : w.op = m.opcode) :
    step s = if m.format.reservedClear w then exec (m.withOperands w) (s.accept w rest)
      else .next (s.answered rest s.S (conditionResponse .illegalCommand)) := by
  rw [step_of_offers h, execWord, decode_of_op hop]
  cases m.format.reservedClear w <;> rfl

/-- An offered command of two 64-bit operands whose meaning is one `OK` response. -/
theorem step_of_offers_qq {s : State} {w : CmdWord} {rest : List CmdWord} {m : Mnemonic}
    {r0 r1 : Word} (h : s.Offers w rest) (hop : w.op = m.opcode) (hf : m.format = .qq)
    (hexec : ∀ t, exec (m.withOperands w) t = .next (t.respond .ok r0 r1)) :
    step s = .next (s.answered rest s.S
      (if w.n = 0 then okResponse r0 r1 else conditionResponse .illegalCommand)) := by
  rw [step_of_offers_op h hop, hexec, State.accept_respond]
  simp only [hf, Format.reservedClear_qq]
  split <;> rfl

/-! ### The commands (R83, R84) -/

theorem exec_add64 (a b : Word) (s : State) : exec (.add64 a b) s
    = .next (s.respond .ok (.ofNat 64 ((a.toNat + b.toNat) % 2 ^ 64)) 0) := by
  have hsum : add64 a b = .ofNat 64 ((a.toNat + b.toNat) % 2 ^ 64) := by
    rw [← add64_toNat, BitVec.ofNat_toNat, BitVec.setWidth_eq]
  rw [← hsum]
  rfl

theorem exec_wmul64 (a b : Word) (s : State) : exec (.wmul64 a b) s
    = .next (s.respond .ok (.ofNat 64 (a.toNat * b.toNat % 2 ^ 64))
        (.ofNat 64 (a.toNat * b.toNat / 2 ^ 64))) := by
  have hlow : (widenMul64 a b).1 = .ofNat 64 (a.toNat * b.toNat % 2 ^ 64) := by
    rw [← widenMul64_fst_toNat, BitVec.ofNat_toNat, BitVec.setWidth_eq]
  rw [← hlow]
  rfl

/-- Settles O32: both commands are of two 64-bit operands and answer `OK` in every state. -/
theorem arithmeticCommands : Obligations.ArithmeticCommands :=
  fun _ w _ h =>
    ⟨fun hop => step_of_offers_qq (m := .add64) h hop rfl (exec_add64 w.a w.b),
      fun hop => step_of_offers_qq (m := .wmul64) h hop rfl (exec_wmul64 w.a w.b)⟩

end Sys2Proof.Machine
end

section
/-! SUPPORT. The two step functions of `41_step.md` as naturals, the states at which their product is
zero, and the raw step commands. -/

namespace Sys2Proof

/-- A format without operands reserves the three fields whole (R52). -/
theorem Format.reservedClear_z (w : CmdWord) :
    Format.z.reservedClear w = true ↔ w.n = 0 ∧ w.b = 0 ∧ w.a = 0 := by
  simp only [Format.reservedClear, Bool.and_eq_true, beq_iff_eq, and_assoc]

theorem Params.c1_ne_zero (p : Params) : p.c1 ≠ 0 := by
  intro h
  have hodd := p.c1_toNat
  rw [h] at hodd
  simp at hodd

end Sys2Proof

namespace Sys2Proof.Machine

/-! ### Exact values of the adder and the multipliers (R75, R77, R78) -/

theorem add64_eq_ofNat_mod (a b : Word) :
    add64 a b = .ofNat 64 ((a.toNat + b.toNat) % 2 ^ 64) := by
  rw [← add64_toNat, BitVec.ofNat_toNat, BitVec.setWidth_eq]

theorem widenMul64_fst_eq (a b : Word) :
    (widenMul64 a b).1 = .ofNat 64 (a.toNat * b.toNat % 2 ^ 64) := by
  rw [← widenMul64_fst_toNat, BitVec.ofNat_toNat, BitVec.setWidth_eq]

theorem widenMul64_snd_eq (a b : Word) :
    (widenMul64 a b).2 = .ofNat 64 (a.toNat * b.toNat / 2 ^ 64) := rfl

theorem add64_sub_cancel (v c : Word) : add64 (v - c) c = v := by
  rw [add64_eq_add, BitVec.sub_add_cancel]

theorem add64_c1_ne (p : Params) (s : Word) : add64 s p.c1 ≠ s := by
  rw [add64_eq_add]
  intro h
  exact p.c1_ne_zero (left_eq_add.mp h.symm)

theorem widenMul64_of_zero {a b : Word} (h : a = 0 ∨ b = 0) : widenMul64 a b = (0, 0) := by
  rcases h with rfl | rfl <;> simp [widenMul64]

theorem mul32w_of_zero {x y : Half} (h : x = 0 ∨ y = 0) : mul32w x y = 0 := by
  rcases h with rfl | rfl <;> simp [mul32w]

/-- A zero operand has zero limbs, and each partial product has a limb of each operand. -/
theorem partials_of_zero {a b : Word} (h : a = 0 ∨ b = 0) : partials a b = ⟨0, 0, 0, 0⟩ := by
  have hlow : lo32 0 = 0 := by decide
  have hhigh : hi32 0 = 0 := by decide
  rcases h with rfl | rfl <;> simp only [partials, hlow, hhigh, mul32w_of_zero, true_or, or_true]

/-! ### The steps (R91, R93) -/

theorem stepPrecise_snd (p : Params) (s : Word) :
    let m := widenMul64 (add64 s p.c1) (add64 s p.c1 ^^^ p.c2)
    (stepPrecise p s).2 = m.1 ^^^ m.2 := rfl

theorem stepFast_snd (p : Params) (s : Word) :
    let m := partials (add64 s p.c1) (add64 s p.c1 ^^^ p.c2)
    (stepFast p s).2 = p.fastMix m.ll m.lh m.hl m.hh := rfl

/-- Settles O34: the successor is the wrapped sum, and the two folded words are the remainder and the
quotient of the product by `2^64`. -/
theorem preciseStepIsExact : Obligations.PreciseStepIsExact := by
  intro p s s' m
  have hs : add64 s p.c1 = s' := add64_eq_ofNat_mod s p.c1
  refine Prod.ext hs ?_
  rw [stepPrecise_snd, hs, widenMul64_fst_eq, widenMul64_snd_eq]

/-- Settles O35: both steps advance by `C1`, and a partial product is the product of two limbs. -/
theorem fastStepFoldsPartials : Obligations.FastStepFoldsPartials := by
  intro p s
  refine ⟨by rw [stepFast_fst, stepPrecise_fst], ?_⟩
  simp only [stepFast_snd, stepPrecise_fst, partials, mul32w]

/-! ### The states at which the product is zero (R99) -/

/-- A successor at which one operand of the multiply is zero gives the precise output 0. -/
theorem stepPrecise_of_product_zero {p : Params} {s v : Word} (hs : add64 s p.c1 = v)
    (hv : v = 0 ∨ v ^^^ p.c2 = 0) : stepPrecise p s = (v, 0) := by
  refine Prod.ext hs ?_
  rw [stepPrecise_snd, hs, widenMul64_of_zero hv, BitVec.xor_self]
  rfl

/-- A successor at which one operand of the multiply is zero gives four zero partial products. -/
theorem stepFast_of_product_zero {p : Params} {s v : Word} (hs : add64 s p.c1 = v)
    (hv : v = 0 ∨ v ^^^ p.c2 = 0) : stepFast p s = (v, p.fastMix 0 0 0 0) := by
  refine Prod.ext hs ?_
  rw [stepFast_snd, hs, partials_of_zero hv]

/-- Settles O37: at the successor 0 the first operand is zero and at `C2` the mixer is, and adding the
nonzero `C1` moves every state. -/
theorem distinguishedStates : Obligations.DistinguishedStates := by
  intro p
  have hzero := add64_sub_cancel 0 p.c1
  have hmixer := add64_sub_cancel p.c2 p.c1
  have hxor : p.c2 ^^^ p.c2 = 0 := BitVec.xor_self
  exact ⟨stepPrecise_of_product_zero hzero (.inl rfl), stepFast_of_product_zero hzero (.inl rfl),
    stepPrecise_of_product_zero hmixer (.inr hxor), stepFast_of_product_zero hmixer (.inr hxor),
    fun s => ⟨add64_c1_ne p s, add64_c1_ne p s⟩⟩

/-! ### The commands (R97, R98) -/

/-- An offered command without operands: a reserved bit is any bit below `OP`. -/
theorem step_of_offers_z {s : State} {w : CmdWord} {rest : List CmdWord} {m : Mnemonic}
    (h : s.Offers w rest) (hop : w.op = m.opcode) (hf : m.format = .z) :
    step s = if w.n = 0 ∧ w.b = 0 ∧ w.a = 0 then exec (m.withOperands w) (s.accept w rest)
      else .next (s.answered rest s.S (conditionResponse .illegalCommand)) := by
  simp only [step_of_offers_op h hop, hf, Format.reservedClear_z]

/-- Accepting a word, writing `S` and responding is what `State.answered` says. -/
theorem State.accept_withS_respond (s : State) (w : CmdWord) (rest : List CmdWord) (v : Word)
    (c : Status) (r0 r1 : Word) :
    ((s.accept w rest).withS v).respond c r0 r1 = s.answered rest v ⟨c, r0, r1⟩ := rfl

/-- An offered command without operands whose meaning is a function from `S` to the new `S` and the
result in `R0`. -/
theorem step_of_offers_draw {s : State} {w : CmdWord} {rest : List CmdWord} {m : Mnemonic}
    {f : Word → Word × Word} (h : s.Offers w rest) (hop : w.op = m.opcode) (hf : m.format = .z)
    (hexec : ∀ t, exec (m.withOperands w) t = .next ((t.withS (f t.S).1).respond .ok (f t.S).2 0)) :
    step s = .next (if w.n = 0 ∧ w.b = 0 ∧ w.a = 0 then
        s.answered rest (f s.S).1 (okResponse (f s.S).2 0)
      else s.answered rest s.S (conditionResponse .illegalCommand)) := by
  rw [step_of_offers_z h hop hf, hexec, State.accept_S, State.accept_withS_respond]
  split <;> rfl

theorem exec_next64 (s : State) : exec .next64 s
    = .next ((s.withS (stepPrecise Config.params s.S).1).respond .ok
        (stepPrecise Config.params s.S).2 0) := rfl

theorem exec_fnext64 (s : State) : exec .fnext64 s
    = .next ((s.withS (stepFast Config.params s.S).1).respond .ok
        (stepFast Config.params s.S).2 0) := rfl

/-- Settles O38: both commands have no operands, and each is one step of its variant. -/
theorem rawStepCommands : Obligations.RawStepCommands :=
  fun _ _ _ h =>
    ⟨fun hop => step_of_offers_draw (m := .next64) h hop rfl exec_next64,
      fun hop => step_of_offers_draw (m := .fnext64) h hop rfl exec_fnext64⟩

end Sys2Proof.Machine
end

section
/-! SUPPORT. The seeding and state-access commands of `42_seed_state.md`, and why a run of commands
answers the same from every state with the same `S` and the same entropy. -/

namespace Sys2Proof

/-- A format with one 64-bit operand reserves `N` and `B` (R52). -/
theorem Format.reservedClear_q (w : CmdWord) :
    Format.q.reservedClear w = true ↔ w.n = 0 ∧ w.b = 0 := by
  simp only [Format.reservedClear, Bool.and_eq_true, beq_iff_eq]

/-- A format with two 32-bit operands reserves `N` and both upper halves (R52). -/
theorem Format.reservedClear_ww (w : CmdWord) :
    Format.ww.reservedClear w = true ↔ w.n = 0 ∧ w.bHigh = 0 ∧ w.aHigh = 0 := by
  simp only [Format.reservedClear, Bool.and_eq_true, beq_iff_eq, and_assoc]

/-- A format with an operand in `N` and two 32-bit operands reserves only the upper halves (R52). -/
theorem Format.reservedClear_nww (w : CmdWord) :
    Format.nww.reservedClear w = true ↔ w.bHigh = 0 ∧ w.aHigh = 0 := by
  simp only [Format.reservedClear, Bool.and_eq_true, beq_iff_eq]

end Sys2Proof

namespace Sys2Proof.Machine

/-! ### An offered command with a known meaning -/

/-- An offered word with the `OP` of a command and `P` as its reserved-bit test does what the
command means, or is illegal. -/
theorem step_of_offers_next {s t : State} {w : CmdWord} {rest : List CmdWord} {m : Mnemonic}
    {P : Prop} [Decidable P] (h : s.Offers w rest) (hop : w.op = m.opcode)
    (hclear : m.format.reservedClear w = true ↔ P)
    (hexec : exec (m.withOperands w) (s.accept w rest) = .next t) :
    step s = .next (if P then t else s.answered rest s.S (conditionResponse .illegalCommand)) := by
  simp only [step_of_offers_op h hop, hexec, hclear]
  split <;> rfl

/-! ### The meanings (R106, R107, R108, R110, R113) -/

theorem exec_seed64 (v : Word) (s : State) : exec (.seed64 v) s
    = .next ((s.withS v).respond .ok 0 0) := rfl

theorem exec_seed32x2 (lo hi : Half) (s : State) : exec (.seed32x2 lo hi) s
    = .next ((s.withS (joinHalves lo hi)).respond .ok 0 0) := rfl

theorem exec_setstate (n : BitVec 8) (lo hi : Half) (s : State) : exec (.setstate n lo hi) s
    = .next (if n = 2 then (s.withS (joinHalves lo hi)).respond .ok 0 0
        else s.raise .invalidSeedShape) := rfl

theorem exec_getstate (s : State) : exec .getstate s
    = .next (s.respond .ok (zext64 (lo32 s.S)) (zext64 (hi32 s.S))) := rfl

theorem exec_seedent (s : State) : exec .seedent s = .next s.seedFromEntropy := rfl

theorem State.seedFromEntropy_of_two {s : State} {e0 e1 : Half} {more : List Half}
    (h : s.entPort = e0 :: e1 :: more) : s.seedFromEntropy
      = ((s.withEntropy more).withS (joinHalves e0 e1)).respond .ok 0 0 := by
  simp only [State.seedFromEntropy, h]

theorem State.seedFromEntropy_of_few {s : State} (h : s.entPort.length < 2) :
    s.seedFromEntropy = s := by
  rcases s.seedFromEntropy_cases with ⟨e0, e1, more, he, -⟩ | ⟨-, hs⟩
  · simp [he] at h
  · exact hs

theorem zext64_lo32 (v : Word) : zext64 (lo32 v) = .ofNat 64 (v.toNat % 2 ^ 32) := by
  rw [zext64_eq_ofNat, lo32_toNat]

theorem zext64_hi32 (v : Word) : zext64 (hi32 v) = .ofNat 64 (v.toNat / 2 ^ 32) := by
  rw [zext64_eq_ofNat, hi32_toNat]

/-! ### The commands -/

/-- Settles O40: both commands write `S` with the operand as it stands in the word. -/
theorem seedCommands : Obligations.SeedCommands :=
  fun _ w _ h =>
    ⟨fun hop => step_of_offers_next (m := .seed64) h hop (Format.reservedClear_q w)
        (exec_seed64 w.a _),
      fun hop => step_of_offers_next (m := .seed32x2) h hop (Format.reservedClear_ww w)
        (exec_seed32x2 w.aLow w.bLow _)⟩

/-- Settles O41: the decoder tests the reserved bits, so the meaning has only the count to test. -/
theorem setstateCommand : Obligations.SetstateCommand := by
  intro s w rest h hop
  have hclear : Format.nww.reservedClear w = true ↔ ¬ (w.bHigh ≠ 0 ∨ w.aHigh ≠ 0) := by
    rw [Format.reservedClear_nww, not_or, not_not, not_not]
  rw [step_of_offers_next (m := .setstate) h hop hclear (exec_setstate w.n w.aLow w.bLow _),
    ite_not, ite_not]
  rfl

/-- Settles O42: the response is all that the two branches differ in. -/
theorem getstateCommand : Obligations.GetstateCommand := by
  intro s w rest h hop
  rw [step_of_offers_next (m := .getstate) h hop (Format.reservedClear_z w) (exec_getstate _),
    State.accept_S, zext64_lo32, zext64_hi32, State.accept_respond, apply_ite (s.answered rest s.S)]
  rfl

/-- Settles O43: a word without reserved bits seeds from the port, which writes `S` only when both
values are there. -/
theorem seedentCommand : Obligations.SeedentCommand := by
  intro s w rest h hop
  have hstep := step_of_offers_next (m := .seedent) h hop (Format.reservedClear_z w)
    (exec_seedent _)
  refine ⟨fun hw => ?reserved, fun hw e0 e1 more he => ?takes, fun hw hfew t ht => ?waits⟩
  case reserved => rw [hstep, if_neg hw]
  case takes =>
    rw [hstep, if_pos hw, State.seedFromEntropy_of_two (s := s.accept w rest) he]
    rfl
  case waits =>
    rw [hstep, if_pos hw, State.seedFromEntropy_of_few (s := s.accept w rest) hfew] at ht
    cases ht
    exact ⟨State.accept_S .., fun r => by simp⟩

/-- Settles O46: the halves of `v` joined again are `v`. -/
theorem seedFormsAgree : Obligations.SeedFormsAgree := by
  intro v s
  refine ⟨rfl, ?_, ?_⟩
  · rw [exec_seed32x2, exec_seed64, joinHalves_lo32_hi32]
  · rw [exec_setstate, if_pos rfl, exec_seed64, joinHalves_lo32_hi32]

/-! ### A command reads `S`, the entropy port and what is in flight, and nothing else (R20) -/

/-- The state `s` as a command sees it, with everything else as in `u`. -/
def State.withRestOf (s u : State) : State :=
  { u with S := s.S, entPort := s.entPort, activity := s.activity }

@[simp] theorem State.withRestOf_S (s u : State) : (s.withRestOf u).S = s.S := rfl
@[simp] theorem State.withRestOf_entPort (s u : State) : (s.withRestOf u).entPort = s.entPort := rfl
@[simp] theorem State.withRestOf_activity (s u : State) :
    (s.withRestOf u).activity = s.activity := rfl

theorem State.sampleBounded_withRestOf (s u : State) (b : Half) (f : Half → Half) :
    (s.withRestOf u).sampleBounded b f = (s.sampleBounded b f).withRestOf u := by
  simp only [State.sampleBounded, State.withRestOf_S]
  split <;> rfl

theorem State.seedFromEntropy_withRestOf (s u : State) :
    (s.withRestOf u).seedFromEntropy = s.seedFromEntropy.withRestOf u := by
  simp only [State.seedFromEntropy, State.withRestOf_entPort]
  split <;> rfl

/-- A command does the same whatever the rest of the state is, and leaves that rest alone. -/
theorem exec_withRestOf {i : Instr} {s t : State} (u : State) (h : exec i s = .next t) :
    exec i (s.withRestOf u) = .next (t.withRestOf u) := by
  cases i with
  | add64 | wmul64 | next64 | fnext64 | seed64 | seed32x2 | getstate | next32 | bool | unitdbl =>
    cases h
    rfl
  | setstate n lo hi =>
    cases h
    simp only [exec_setstate, apply_ite (State.withRestOf · u)]
    rfl
  | seedent =>
    cases h
    rw [exec_seedent, State.seedFromEntropy_withRestOf]
  | bounded | range | choose =>
    cases h
    simp only [exec, execBounded, execRange, execChoose, State.sampleBounded_withRestOf,
      apply_ite (State.withRestOf · u)]
    rfl

/-- States with one `S` and one entropy port, after accepting one word, differ in the rest only. -/
theorem State.accept_withRestOf {s t : State} (hS : s.S = t.S) (he : s.entPort = t.entPort)
    (w : CmdWord) : (s.accept w s.cmdPort).withRestOf t = t.accept w t.cmdPort := by
  simp only [State.withRestOf, State.accept, hS, he]

/-! ### Runs of commands (R29, R45) -/

/-- What a command or a run of commands shows: its answer, and the `S` and entropy it leaves. -/
def runResult {α : Type} (x : α × State) : α × Word × List Half := (x.1, x.2.S, x.2.entPort)

theorem issueAll_cons (i : Instr) (is : List Instr) (s : State) : issueAll (i :: is) s
    = (issue i s).bind fun x => (issueAll is x.2).map fun y => (x.1 :: y.1, y.2) := by
  rw [issueAll]
  cases issue i s <;> rfl

/-- A response and the state it leaves depend on `S` and the entropy port alone. -/
theorem issue_runResult_congr (i : Instr) {s t : State} (hS : s.S = t.S)
    (he : s.entPort = t.entPort) : (issue i s).map runResult = (issue i t).map runResult := by
  obtain ⟨u, hs, -⟩ := exec_cases i (s.accept (encode i) s.cmdPort)
  have ht := exec_withRestOf t hs
  rw [State.accept_withRestOf hS he] at ht
  simp only [issue, hs, ht, State.withRestOf_activity]
  cases u.activity <;> rfl

/-- The responses of a run and the state it leaves depend on `S` and the entropy port alone. -/
theorem issueAll_runResult_congr (cmds : List Instr) {s t : State} (hS : s.S = t.S)
    (he : s.entPort = t.entPort) :
    (issueAll cmds s).map runResult = (issueAll cmds t).map runResult := by
  induction cmds generalizing s t with
  | nil => simp only [issueAll, Option.map_some, runResult, hS, he]
  | cons i is ih =>
    have hi := issue_runResult_congr i hS he
    rw [issueAll_cons, issueAll_cons]
    cases hs : issue i s with
    | none =>
      rw [hs, Option.map_none, eq_comm, Option.map_eq_none_iff] at hi
      rw [hi]
    | some x =>
      rw [hs, Option.map_some, eq_comm, Option.map_eq_some_iff] at hi
      obtain ⟨y, ht, hxy⟩ := hi
      simp only [runResult, Prod.mk.injEq] at hxy
      obtain ⟨hr, hS', he'⟩ := hxy
      have hrest := congrArg (Option.map fun z => (x.1 :: z.1, z.2)) (ih hS'.symm he'.symm)
      simpa [ht, hr, Function.comp_def, runResult] using hrest

/-! ### Saving and restoring (R111) -/

theorem issue_getstate (s : State) : ∃ r s1, issue .getstate s = some (r, s1) ∧
    r.snapshot = ⟨lo32 s.S, hi32 s.S⟩ ∧ s1.S = s.S ∧ s1.entPort = s.entPort :=
  ⟨_, _, rfl, by simp only [Response.snapshot, State.sLo, State.sHi, lo32_zext64, State.accept_S],
    rfl, rfl⟩

theorem issue_restore (p : Snapshot) (t : State) : ∃ t1, issue (restore p) t
    = some (okResponse 0 0, t1) ∧ t1.S = joinHalves p.lo p.hi ∧ t1.entPort = t.entPort :=
  ⟨_, rfl, rfl, rfl⟩

/-- Settles O47: the restored `S` is the saved one, and a run depends on `S` and entropy alone. -/
theorem snapshotRoundTrip : Obligations.SnapshotRoundTrip := by
  intro s t
  obtain ⟨r, s1, hget, hsnap, hs1, hse⟩ := issue_getstate s
  obtain ⟨t1, hset, ht1, hte⟩ := issue_restore r.snapshot t
  rw [hsnap, joinHalves_lo32_hi32] at ht1
  refine ⟨r, s1, t1, hget, hs1, hset, ht1, fun hent cmds => ?_⟩
  have hent1 : t1.entPort = s1.entPort := by rw [hte, hse, hent]
  have hrun := issueAll_runResult_congr cmds (ht1.trans hs1.symm) hent1
  simpa [Function.comp_def, runResult] using congrArg (Option.map Prod.fst) hrun

end Sys2Proof.Machine
end

section
/-! SUPPORT. The double of `43_sampling.md` R128 field by field, and the fixed-draw commands, each
one step whose output word is folded. -/

namespace Sys2Proof.Machine

/-! ### A positive binary64 pattern as its fields (R128) -/

/-- The binary64 pattern of sign 0, biased exponent `e` and fraction `f`. -/
def positiveDouble (e : BitVec 11) (f : BitVec 52) : Word := 0#1 ++ e ++ f

theorem positiveDouble_toNat (e : BitVec 11) (f : BitVec 52) :
    (positiveDouble e f).toNat = e.toNat * 2 ^ 52 + f.toNat := by
  simp only [positiveDouble, toNat_append_eq, BitVec.toNat_ofNat, Nat.zero_mod, Nat.zero_mul,
    Nat.zero_add]

theorem positiveDouble_sign (e : BitVec 11) (f : BitVec 52) :
    (positiveDouble e f).getLsbD 63 = false := by
  have := e.isLt
  have := f.isLt
  rw [BitVec.getLsbD, positiveDouble_toNat]
  exact Nat.testBit_lt_two_pow (by omega)

theorem positiveDouble_exponent (e : BitVec 11) (f : BitVec 52) :
    (positiveDouble e f).extractLsb' 52 11 = e := by
  have := e.isLt
  have := f.isLt
  apply BitVec.eq_of_toNat_eq
  rw [BitVec.extractLsb'_toNat, Nat.shiftRight_eq_div_pow, positiveDouble_toNat]
  omega

theorem positiveDouble_fraction (e : BitVec 11) (f : BitVec 52) :
    (positiveDouble e f).extractLsb' 0 52 = f := by
  have := f.isLt
  apply BitVec.eq_of_toNat_eq
  rw [BitVec.extractLsb'_toNat, Nat.shiftRight_zero, positiveDouble_toNat]
  omega

/-! ### The double of a 53-bit integer (R128) -/

/-- The exponent field of a nonzero `m`, by its top set bit. -/
def dblExponent (m : BitVec 53) : BitVec 11 := .ofNat 11 (970 + m.toNat.log2)

/-- The fraction field of a nonzero `m`: the bits below its top set bit, left-aligned. -/
def dblFraction (m : BitVec 53) : BitVec 52 := .ofNat 52 (m.toNat * 2 ^ (52 - m.toNat.log2))

theorem dbl53_of_ne_zero {m : BitVec 53} (h : m ≠ 0) :
    dbl53 m = positiveDouble (dblExponent m) (dblFraction m) := if_neg h

theorem log2_le_52 (m : BitVec 53) : m.toNat.log2 ≤ 52 := by
  by_cases hm : m.toNat = 0
  · simp [hm]
  · exact Nat.le_of_lt_succ ((Nat.log2_lt hm).mpr m.isLt)

theorem dblExponent_toNat (m : BitVec 53) : (dblExponent m).toNat = 970 + m.toNat.log2 := by
  have := log2_le_52 m
  simp only [dblExponent, BitVec.toNat_ofNat]
  omega

/-- Aligned, the top set bit is bit 52: the implicit bit of a normal number, which the fraction
field drops. -/
theorem dblFraction_toNat {m : BitVec 53} (h : m.toNat ≠ 0) :
    2 ^ 52 + (dblFraction m).toNat = m.toNat * 2 ^ (52 - m.toNat.log2) := by
  have hk := log2_le_52 m
  have hlow : 2 ^ 52 ≤ m.toNat * 2 ^ (52 - m.toNat.log2) := calc
    2 ^ 52 = 2 ^ m.toNat.log2 * 2 ^ (52 - m.toNat.log2) := by rw [← pow_add]; congr 1; omega
    _ ≤ _ := Nat.mul_le_mul_right _ (Nat.log2_self_le h)
  have hhigh : m.toNat * 2 ^ (52 - m.toNat.log2) < 2 ^ 53 := calc
    _ < 2 ^ (m.toNat.log2 + 1) * 2 ^ (52 - m.toNat.log2) :=
      Nat.mul_lt_mul_of_pos_right Nat.lt_log2_self (by positivity)
    _ = 2 ^ 53 := by rw [← pow_add]; congr 1; omega
  simp only [dblFraction, BitVec.toNat_ofNat]
  omega

/-- The shift that aligns the fraction and the exponent add up to the scale `2^-53`. -/
theorem dbl53_value {m : BitVec 53} (h : m.toNat ≠ 0) :
    (2 ^ 52 + (dblFraction m).toNat) * 2 ^ (dblExponent m).toNat = m.toNat * 2 ^ 1022 := by
  have hk := log2_le_52 m
  rw [dblFraction_toNat h, dblExponent_toNat, mul_assoc, ← pow_add]
  congr 2
  omega

theorem isDouble53_dbl53 (m : BitVec 53) : IsDouble53 (dbl53 m) m.toNat := by
  by_cases hm : m = 0
  · subst hm
    exact .inl ⟨rfl, rfl⟩
  · have hne : m.toNat ≠ 0 := fun e => hm (BitVec.eq_of_toNat_eq e)
    have hk := log2_le_52 m
    refine .inr ⟨Nat.pos_of_ne_zero hne, ?_⟩
    rw [dbl53_of_ne_zero hm, positiveDouble_exponent, positiveDouble_fraction]
    refine ⟨positiveDouble_sign .., ?_, ?_, dbl53_value hne⟩
    all_goals rw [dblExponent_toNat]; omega

/-- The exponent field is at most 1022, and that of 1.0 is 1023. -/
theorem dbl53_lt_one (m : BitVec 53) : (dbl53 m).toNat < 0x3FF0000000000000 := by
  by_cases hm : m = 0
  · rw [hm]; decide
  · have hk := log2_le_52 m
    have hf := (dblFraction m).isLt
    rw [dbl53_of_ne_zero hm, positiveDouble_toNat, dblExponent_toNat]
    omega

/-- Settles O48: the fields of the pattern are read back, and its value is that of the
aligned `m`. -/
theorem unitDoubleIsExact : Obligations.UnitDoubleIsExact :=
  fun m => ⟨isDouble53_dbl53 m, dbl53_lt_one m⟩

/-! ### The folds of an output word (R122, R124, R126) -/

theorem zextBit_getLsbD_zero (v : Word) : zextBit (v.getLsbD 0) = .ofNat 64 (v.toNat % 2) := by
  rw [BitVec.getLsbD, Nat.testBit_zero]
  rcases Nat.mod_two_eq_zero_or_one v.toNat with h | h <;> rw [h] <;> rfl

theorem top53_eq_ofNat (v : Word) : top53 v = .ofNat 53 (v.toNat / 2 ^ 11) := by
  rw [top53, BitVec.extractLsb', Nat.shiftRight_eq_div_pow]

/-! ### The meanings: one step, its output folded (R120, R122, R124, R127) -/

theorem exec_next32 (s : State) : exec .next32 s
    = .next ((s.withS (stepPrecise Config.params s.S).1).respond .ok
        (.ofNat 64 ((stepPrecise Config.params s.S).2.toNat % 2 ^ 32)) 0) := by
  rw [← zext64_lo32]
  rfl

theorem exec_bool (s : State) : exec .bool s
    = .next ((s.withS (stepFast Config.params s.S).1).respond .ok
        (.ofNat 64 ((stepFast Config.params s.S).2.toNat % 2)) 0) := by
  rw [← zextBit_getLsbD_zero]
  rfl

theorem exec_unitdbl (s : State) : exec .unitdbl s
    = .next ((s.withS (stepPrecise Config.params s.S).1).respond .ok
        (dbl53 (.ofNat 53 ((stepPrecise Config.params s.S).2.toNat / 2 ^ 11))) 0) := by
  rw [← top53_eq_ofNat]
  rfl

/-- Settles O49: none of the commands has operands, and each folds the output of one step. -/
theorem fixedDrawCommands : Obligations.FixedDrawCommands :=
  fun _ _ _ h =>
    ⟨fun hop => step_of_offers_draw (m := .next32) h hop rfl exec_next32
        (f := Prod.map id (fun out : Word => .ofNat 64 (out.toNat % 2 ^ 32)) ∘
          stepPrecise Config.params),
      fun hop => step_of_offers_draw (m := .bool) h hop rfl exec_bool
        (f := Prod.map id (fun out : Word => .ofNat 64 (out.toNat % 2)) ∘
          stepFast Config.params),
      fun hop => step_of_offers_draw (m := .unitdbl) h hop rfl exec_unitdbl
        (f := Prod.map id (fun out : Word => dbl53 (.ofNat 53 (out.toNat / 2 ^ 11))) ∘
          stepPrecise Config.params)⟩

end Sys2Proof.Machine
end

section
/-! SUPPORT. The bounded engine of `44_bounded.md`: its threshold, the first accepted draw it
returns, and how many of the 2^32 draws each result has. -/

namespace Sys2Proof.Machine

/-! ### The threshold (R138) -/

theorem threshold_toNat_eq_mod {b : Half} (h : b ≠ 0) :
    (threshold b).toNat = 2 ^ 32 % b.toNat := by
  rw [threshold_toNat h, ← Nat.mod_eq_sub_mod b.isLt.le]

/-- What the threshold cuts off leaves a whole number of draws for each result. -/
theorem dvd_sub_threshold {b : Half} (h : b ≠ 0) : b.toNat ∣ 2 ^ 32 - (threshold b).toNat := by
  rw [threshold_toNat_eq_mod h]
  exact Nat.dvd_sub_mod _

theorem threshold_of_two_pow {b : Half} (h : b ≠ 0) {k : Nat} (hk : b.toNat = 2 ^ k) :
    threshold b = 0 := by
  have hle : k ≤ 32 := by
    have hlt := b.isLt
    rw [hk, Nat.pow_lt_pow_iff_right (by decide)] at hlt
    exact hlt.le
  apply BitVec.eq_of_toNat_eq
  rw [threshold_toNat_eq_mod h, hk]
  exact Nat.mod_eq_zero_of_dvd (pow_dvd_pow 2 hle)

/-- Settles O51: both forms of the threshold are one remainder, and the candidate is the exact
product cut into halves. -/
theorem thresholdAndCandidate : Obligations.ThresholdAndCandidate :=
  fun _ h =>
    ⟨threshold_toNat_eq_mod h, threshold_toNat h, threshold_lt h, dvd_sub_threshold h,
      fun _ hk => threshold_of_two_pow h hk,
      fun x => ⟨candidateHigh_toNat .., candidateLow_toNat .., candidateHigh_lt h x⟩⟩

/-! ### The sequence of draws (R96) -/

theorem drawAt_succ (p : Params) (s : Word) (k : Nat) :
    drawAt p s (k + 1) = drawAt p (next32 p s).1 k := by
  rw [drawAt, drawAt, next32_fst, stateAfter_add64]

theorem resultAt_succ (p : Params) (s : Word) (b : Half) (k : Nat) :
    resultAt p s b (k + 1) = resultAt p (next32 p s).1 b k := by
  rw [resultAt, resultAt, drawAt_succ]

/-- The states, and with them the draws, repeat after 2^64 steps (R96). -/
theorem drawAt_periodic (p : Params) (s : Word) : Function.Periodic (drawAt p s) (2 ^ 64) := by
  intro k
  have hstate : stateAfter p s (k + 2 ^ 64) = stateAfter p s k := by
    apply BitVec.eq_of_toNat_eq
    simp only [stateAfter, BitVec.toNat_ofNat]
    rw [Nat.add_mul, ← Nat.add_assoc, Nat.add_mul_mod_self_left]
  rw [drawAt, drawAt, hstate]

theorem firstAccepted_succ_iff {p : Params} {s : Word} {b : Half} {k : Nat} :
    FirstAccepted p s b (k + 1) ↔
      ¬ Accepts b (next32 p s).2 ∧ FirstAccepted p (next32 p s).1 b k := by
  simp only [FirstAccepted, drawAt_succ, Nat.forall_lt_succ_left, drawAt_zero, and_left_comm]

/-- An accepted draw, if there is one, comes in the first period. -/
theorem FirstAccepted.lt {p : Params} {s : Word} {b : Half} {k : Nat}
    (h : FirstAccepted p s b k) : k < 2 ^ 64 := by
  obtain ⟨haccepts, hfirst⟩ := h
  rw [← (drawAt_periodic p s).map_mod_nat k] at haccepts
  have hle : k ≤ k % 2 ^ 64 := Nat.le_of_not_lt fun hlt => hfirst _ hlt haccepts
  exact hle.trans_lt (Nat.mod_lt k (by positivity))

theorem exists_firstAccepted_or_neverAccepts (p : Params) (s : Word) (b : Half) :
    (∃ k, FirstAccepted p s b k) ∨ NeverAccepts p s b := by
  by_cases h : ∃ k, Accepts b (drawAt p s k)
  · exact .inl ⟨Nat.find h, Nat.find_spec h, fun _ => Nat.find_min h⟩
  · exact .inr (not_exists.mp h)

/-! ### The rejection loop (R139, R140, R143) -/

/-- With fuel for the draws before the first accepted one, the loop ends at that one. -/
theorem redraw_of_firstAccepted {p : Params} {b : Half} {k fuel : Nat} {s : Word}
    (h : FirstAccepted p s b k) (hfuel : k ≤ fuel) :
    redraw p b (threshold b) fuel (next32 p s).1 (next32 p s).2
      = some (stateAfter p s (k + 1), resultAt p s b k) := by
  induction k generalizing s fuel with
  | zero =>
    obtain ⟨haccepts, -⟩ := h
    rw [drawAt_zero] at haccepts
    rw [redraw_of_accepts haccepts, resultAt, drawAt_zero, ← add64_stateAfter, stateAfter_zero,
      next32_fst]
  | succ k ih =>
    obtain ⟨hreject, hnext⟩ := firstAccepted_succ_iff.mp h
    obtain ⟨fuel, rfl⟩ := Nat.exists_eq_add_of_le' (Nat.succ_le_of_lt (Nat.zero_lt_of_lt hfuel))
    rw [redraw_of_rejects hreject, ih hnext (Nat.le_of_succ_le_succ hfuel), next32_fst,
      stateAfter_add64, resultAt_succ, next32_fst]

theorem redraw_of_neverAccepts {p : Params} {b : Half} {fuel : Nat} {s : Word}
    (h : NeverAccepts p s b) :
    redraw p b (threshold b) fuel (next32 p s).1 (next32 p s).2 = none := by
  induction fuel generalizing s with
  | zero =>
    have hreject := h 0
    rw [drawAt_zero, ← not_low_lt_threshold_iff, not_not] at hreject
    rw [redraw, if_pos hreject]
  | succ fuel ih =>
    have hreject := h 0
    rw [drawAt_zero] at hreject
    rw [redraw_of_rejects hreject]
    exact ih fun k => drawAt_succ p s k ▸ h (k + 1)

/-- The outer test of R139 only saves the threshold: `low ≥ bound` accepts, as `t < bound`. -/
theorem bounded_eq_redraw (p : Params) (s : Word) {b : Half} (hb : b ≠ 0) :
    bounded p s b
      = redraw p b (threshold b) maxRedraws (next32 p s).1 (next32 p s).2 := by
  by_cases hlow : candidateLow (next32 p s).2 b < b
  · exact if_pos hlow
  · have haccepts : Accepts b (next32 p s).2 :=
      BitVec.le_trans (BitVec.le_of_lt (threshold_lt hb)) (BitVec.not_lt.mp hlow)
    rw [bounded_of_accepts_first haccepts, redraw_of_accepts haccepts]

theorem bounded_of_firstAccepted {p : Params} {s : Word} {b : Half} {k : Nat} (hb : b ≠ 0)
    (h : FirstAccepted p s b k) :
    bounded p s b = some (stateAfter p s (k + 1), resultAt p s b k) := by
  rw [bounded_eq_redraw p s hb]
  exact redraw_of_firstAccepted h (Nat.le_sub_one_of_lt h.lt)

theorem bounded_of_neverAccepts {p : Params} {s : Word} {b : Half} (hb : b ≠ 0)
    (h : NeverAccepts p s b) : bounded p s b = none := by
  rw [bounded_eq_redraw p s hb, redraw_of_neverAccepts h]

/-- Settles O52: the loop ends at the first accepted draw, which the fuel of one period reaches. -/
theorem engineReturnsFirstAccepted : Obligations.EngineReturnsFirstAccepted := by
  intro p s b hb
  rcases exists_firstAccepted_or_neverAccepts p s b with ⟨k, hk⟩ | hnever
  · exact .inl ⟨k, hk.lt, hk, bounded_of_firstAccepted hb hk⟩
  · exact .inr ⟨hnever, bounded_of_neverAccepts hb hnever⟩

/-! ### Counting the draws of a result (R141) -/

theorem threshold_add_div_mul {b : Half} (h : b ≠ 0) :
    (threshold b).toNat + 2 ^ 32 / b.toNat * b.toNat = 2 ^ 32 := by
  rw [threshold_toNat_eq_mod h, Nat.mod_add_div']

theorem sub_threshold_div {b : Half} (h : b ≠ 0) :
    (2 ^ 32 - (threshold b).toNat) / b.toNat = 2 ^ 32 / b.toNat := by
  have hsum := threshold_add_div_mul h
  rw [show 2 ^ 32 - (threshold b).toNat = 2 ^ 32 / b.toNat * b.toNat by omega,
    Nat.mul_div_cancel _ (toNat_pos_of_ne_zero h)]

/-- The draw `x` is accepted with result `r`. -/
abbrev AcceptsWith (b x : Half) (r : Nat) : Prop :=
  Accepts b x ∧ (candidateHigh x b).toNat = r

/-- The products of the draws accepted with result `r` are those of `x * b` in
`[r * 2^32 + t, (r + 1) * 2^32)`. -/
theorem acceptsWith_iff_product (b x : Half) (r : Nat) :
    AcceptsWith b x r ↔ r * 2 ^ 32 + (threshold b).toNat ≤ b.toNat * x.toNat ∧
      b.toNat * x.toNat < (r + 1) * 2 ^ 32 := by
  have ht := (threshold b).isLt
  rw [AcceptsWith, Accepts, BitVec.le_def, candidateLow_toNat, candidateHigh_toNat, mul_comm]
  omega

/-- The first draw whose product reaches `r * 2^32 + t`. -/
def firstDrawOf (b : Half) (r : Nat) : Nat := (r * 2 ^ 32 + (threshold b).toNat) ⌈/⌉ b.toNat

theorem firstDrawOf_le_iff {b : Half} (h : b ≠ 0) (r x : Nat) :
    firstDrawOf b r ≤ x ↔ r * 2 ^ 32 + (threshold b).toNat ≤ b.toNat * x :=
  ceilDiv_le_iff_le_mul (toNat_pos_of_ne_zero h)

/-- `2^32 / b` draws later the product has passed the end of the interval of `r`: each of them adds
`b`, together `2^32 - t`. -/
theorem lt_firstDrawOf_add_iff {b : Half} (h : b ≠ 0) (r x : Nat) :
    x < firstDrawOf b r + 2 ^ 32 / b.toNat ↔ b.toNat * x < (r + 1) * 2 ^ 32 := by
  have hsum := threshold_add_div_mul h
  rw [mul_comm] at hsum
  rcases Nat.lt_or_ge x (2 ^ 32 / b.toNat) with hx | hx
  · have hproduct := Nat.mul_lt_mul_of_pos_left hx (toNat_pos_of_ne_zero h)
    omega
  · obtain ⟨y, rfl⟩ := Nat.exists_eq_add_of_le hx
    have hfirst := firstDrawOf_le_iff h r y
    rw [Nat.mul_add]
    omega

/-- The draws accepted with result `r` are `2^32 / b` consecutive ones. -/
theorem filter_acceptsWith {b : Half} (h : b ≠ 0) {r : Nat} (hr : r < b.toNat) :
    ((Finset.range (2 ^ 32)).filter fun x => AcceptsWith b (.ofNat 32 x) r)
      = Finset.Ico (firstDrawOf b r) (firstDrawOf b r + 2 ^ 32 / b.toNat) := by
  ext x
  rw [Finset.mem_filter, Finset.mem_range, Finset.mem_Ico, firstDrawOf_le_iff h,
    lt_firstDrawOf_add_iff h, acceptsWith_iff_product, BitVec.toNat_ofNat]
  constructor
  · rintro ⟨hx, hproduct⟩
    rwa [Nat.mod_eq_of_lt hx] at hproduct
  · rintro ⟨hlow, hhigh⟩
    have hend : b.toNat * x < b.toNat * 2 ^ 32 := hhigh.trans_le (Nat.mul_le_mul_right _ hr)
    have hx : x < 2 ^ 32 := Nat.lt_of_mul_lt_mul_left hend
    rw [Nat.mod_eq_of_lt hx]
    exact ⟨hx, hlow, hhigh⟩

theorem card_filter_acceptsWith {b : Half} (h : b ≠ 0) {r : Nat} (hr : r < b.toNat) :
    ((Finset.range (2 ^ 32)).filter fun x => AcceptsWith b (.ofNat 32 x) r).card
      = 2 ^ 32 / b.toNat := by
  rw [filter_acceptsWith h hr, Nat.card_Ico, Nat.add_sub_cancel_left]

/-- The accepted draws, sorted by their results: `b` results of `2^32 / b` draws each. -/
theorem card_filter_accepts {b : Half} (h : b ≠ 0) :
    ((Finset.range (2 ^ 32)).filter fun x => Accepts b (.ofNat 32 x)).card
      = 2 ^ 32 / b.toNat * b.toNat := by
  have hmaps : ∀ x ∈ (Finset.range (2 ^ 32)).filter fun x => Accepts b (.ofNat 32 x),
      (candidateHigh (.ofNat 32 x) b).toNat ∈ Finset.range b.toNat :=
    fun x _ => Finset.mem_range.mpr (candidateHigh_lt h _)
  rw [Finset.card_eq_sum_card_fiberwise hmaps]
  simp only [Finset.filter_filter]
  rw [Finset.sum_congr rfl fun r hr => card_filter_acceptsWith h (Finset.mem_range.mp hr),
    Finset.sum_const, Finset.card_range, smul_eq_mul, mul_comm]

/-- Settles O53: each result below the bound has `2^32 / b` consecutive draws, and what is left of
the 2^32 draws is `t`. -/
theorem exactUniformity : Obligations.ExactUniformity := by
  intro b hb
  refine ⟨fun r hr => ?results, ?rejected⟩
  case results =>
    rw [sub_threshold_div hb, ← card_filter_acceptsWith hb hr]
    simp only [AcceptsWith, BitVec.toNat_inj]
  case rejected =>
    have hsum := threshold_add_div_mul hb
    have hsplit := Finset.card_filter_add_card_filter_not (s := Finset.range (2 ^ 32))
      fun x => Accepts b (.ofNat 32 x)
    rw [card_filter_accepts hb, Finset.card_range] at hsplit
    omega

end Sys2Proof.Machine
end

section
/-! SUPPORT. The bounded-sampling commands of `44_bounded.md`: an operand test, then the engine. -/

namespace Sys2Proof

/-- A format with one 32-bit operand reserves `N`, `B` and the upper half of `A` (R52). -/
theorem Format.reservedClear_w (w : CmdWord) :
    Format.w.reservedClear w = true ↔ w.n = 0 ∧ w.b = 0 ∧ w.aHigh = 0 := by
  simp only [Format.reservedClear, Bool.and_eq_true, beq_iff_eq, and_assoc]

end Sys2Proof

namespace Sys2Proof.Machine

/-! ### The engine on the machine (R139, R143) -/

theorem State.sampleBounded_of_firstAccepted {s : State} {b : Half} {k : Nat} (hb : b ≠ 0)
    (h : FirstAccepted Config.params s.S b k) (f : Half → Half) :
    s.sampleBounded b f = (s.withS (stateAfter Config.params s.S (k + 1))).respond .ok
      (.ofNat 64 (f (resultAt Config.params s.S b k)).toNat) 0 := by
  rw [← zext64_eq_ofNat, State.sampleBounded, bounded_of_firstAccepted hb h]

theorem State.sampleBounded_of_neverAccepts {s : State} {b : Half} (hb : b ≠ 0)
    (h : NeverAccepts Config.params s.S b) (f : Half → Half) : s.sampleBounded b f = s := by
  rw [State.sampleBounded, bounded_of_neverAccepts hb h]

theorem resultAt_lt (p : Params) (s : Word) {b : Half} (hb : b ≠ 0) (k : Nat) :
    resultAt p s b k < b := candidateHigh_lt hb _

/-! ### The meanings (R144 to R146) -/

theorem exec_bounded (b : Half) (s : State) : exec (.bounded b) s
    = .next (if b = 0 then s.raise .invalidRange else s.sampleBounded b id) := rfl

theorem exec_range (lo hi : Half) (s : State) : exec (.range lo hi) s
    = .next (if hi.toNat ≤ lo.toNat then s.raise .invalidRange
        else s.sampleBounded (hi - lo) fun r => lo + r) := rfl

theorem exec_choose (b : Half) (s : State) : exec (.choose b) s
    = .next (if b = 0 then s.raise .emptyCollection else s.sampleBounded b id) := rfl

/-! ### An offered bounded-sampling command -/

/-- An offered command with `P` as its reserved-bit test and `C` as its operand test, whose meaning
is otherwise a function `f` of the engine's result for a nonzero bound `b`. -/
theorem step_of_offers_sample {s : State} {w : CmdWord} {rest : List CmdWord} {m : Mnemonic}
    {P C : Prop} [Decidable P] [Decidable C] {c : Status} {b : Half} {f : Half → Half}
    (h : s.Offers w rest) (hop : w.op = m.opcode) (hclear : m.format.reservedClear w = true ↔ P)
    (hexec : ∀ t, exec (m.withOperands w) t
      = .next (if C then t.raise c else t.sampleBounded b f))
    (hb : ¬ C → b ≠ 0) :
    (¬ P → step s = .next (s.answered rest s.S (conditionResponse .illegalCommand))) ∧
      (P → C → step s = .next (s.answered rest s.S (conditionResponse c))) ∧
      (P → ¬ C →
        (∃ k, FirstAccepted Config.params s.S b k ∧ resultAt Config.params s.S b k < b ∧
          step s = .next (s.answered rest (stateAfter Config.params s.S (k + 1))
            (okResponse (.ofNat 64 (f (resultAt Config.params s.S b k)).toNat) 0))) ∨
        (NeverAccepts Config.params s.S b ∧
          ∀ t, step s = .next t → t.S = s.S ∧ ∀ r, t.activity ≠ .responding r)) := by
  have hstep := step_of_offers_next h hop hclear (hexec _)
  refine ⟨fun hP => ?reserved, fun hP hC => ?condition, fun hP hC => ?draws⟩
  case reserved => rw [hstep, if_neg hP]
  case condition =>
    rw [hstep, if_pos hP, if_pos hC]
    rfl
  case draws =>
    rw [if_pos hP, if_neg hC] at hstep
    rcases exists_firstAccepted_or_neverAccepts Config.params s.S b with ⟨k, hk⟩ | hnever
    · rw [State.sampleBounded_of_firstAccepted (s := s.accept w rest) (hb hC) hk] at hstep
      exact .inl ⟨k, hk, resultAt_lt _ _ (hb hC) k, hstep⟩
    · rw [State.sampleBounded_of_neverAccepts (s := s.accept w rest) (hb hC) hnever] at hstep
      refine .inr ⟨hnever, fun t ht => ?_⟩
      rw [hstep] at ht
      cases ht
      exact ⟨State.accept_S .., fun r => by simp⟩

/-- Settles O54: the operand test is `bound = 0`, and the result is the engine's. -/
theorem boundedCommand : Obligations.BoundedCommand :=
  fun _ w _ h hop =>
    step_of_offers_sample (m := .bounded) h hop (Format.reservedClear_w w) (exec_bounded w.aLow) id

/-- Settles O56: as `BOUNDED`, with another condition for the operand 0. -/
theorem chooseCommand : Obligations.ChooseCommand :=
  fun _ w _ h hop =>
    step_of_offers_sample (m := .choose) h hop (Format.reservedClear_w w) (exec_choose w.aLow) id

/-! ### The range from `min` to `max - 1` (R145) -/

theorem sub_toNat_of_not_le {lo hi : Half} (h : ¬ hi.toNat ≤ lo.toNat) :
    (hi - lo).toNat = hi.toNat - lo.toNat :=
  BitVec.toNat_sub_of_le (BitVec.le_def.mpr (Nat.le_of_not_le h))

theorem sub_ne_zero_of_not_le {lo hi : Half} (h : ¬ hi.toNat ≤ lo.toNat) : hi - lo ≠ 0 :=
  fun hzero => h (congrArg BitVec.toNat (sub_eq_zero.mp hzero)).le

/-- Adding `min` to a result below `max - min` stays below `max`, so it does not wrap. -/
theorem add_toNat_of_lt_sub {lo hi r : Half} (h : ¬ hi.toNat ≤ lo.toNat) (hr : r < hi - lo) :
    (lo + r).toNat = lo.toNat + r.toNat ∧ lo.toNat + r.toNat < hi.toNat := by
  have hhi := hi.isLt
  rw [BitVec.lt_def, sub_toNat_of_not_le h] at hr
  rw [BitVec.toNat_add]
  omega

/-- Settles O55: the operand test leaves a nonzero difference as the bound, and `min` plus a result
below it does not wrap. -/
theorem rangeCommand : Obligations.RangeCommand := by
  intro s w rest h hop
  obtain ⟨hreserved, hcondition, hdraws⟩ := step_of_offers_sample (m := .range) h hop
    (Format.reservedClear_ww w) (exec_range w.aLow w.bLow) sub_ne_zero_of_not_le
  refine ⟨hreserved, hcondition, fun hP hC => (hdraws hP hC).imp_left ?_⟩
  rintro ⟨k, hk, hlt, hstep⟩
  obtain ⟨hsum, hmax⟩ := add_toNat_of_lt_sub hC hlt
  exact ⟨k, hk, hmax, hsum ▸ hstep⟩

end Sys2Proof.Machine
end

section
/-! SUPPORT. Conditions (`60_exceptions.md`): a step that ends a command in a condition is `raise`, on
the state in which the command executes. -/

namespace Sys2Proof.Machine

/-- A command that ends in a condition raises it and does nothing else (R162). -/
theorem ExecCase.eq_raise {i : Instr} {s t : State} {r : Response} (h : ExecCase i s t)
    (hs : ∀ q, s.activity ≠ .responding q) (hr : t.activity = .responding r)
    (hc : r.status ≠ .ok) : t = s.raise r.status := by
  cases h with
  | completes v ent q good failed =>
    cases hr
    obtain ⟨c, r0, r1⟩ := r
    obtain ⟨rfl, rfl⟩ := failed hc
    obtain ⟨rfl, rfl⟩ : r0 = 0 ∧ r1 = 0 := good hc
    rfl
  | rejects | waits => exact absurd hr (hs r)

/-- A word that ends in a condition raises it and does nothing else, whether it encodes a command or
not (R160, R162). -/
theorem execWord_eq_raise {w : CmdWord} {s t : State} {r : Response} (h : execWord w s = .next t)
    (hs : ∀ q, s.activity ≠ .responding q) (hr : t.activity = .responding r)
    (hc : r.status ≠ .ok) : t = s.raise r.status := by
  rcases execWord_cases h with ⟨i, -, hi⟩ | ⟨e, -, rfl⟩
  · exact (exec_next_cases hi).eq_raise hs hr hc
  · cases hr
    rfl

/-- A step that answers with a condition raises it, on the state itself or on the state that has just
accepted a word (R37, R162). -/
theorem step_eq_raise {s t : State} {r : Response} (hrst : s.rst = false)
    (hs : ∀ q, s.activity ≠ .responding q) (h : step s = .next t)
    (hr : t.activity = .responding r) (hc : r.status ≠ .ok) :
    t = s.raise r.status ∨ ∃ w rest, t = (s.accept w rest).raise r.status := by
  cases step_next_cases h with
  | resets hrst' => simp [hrst] at hrst'
  | takes q _ ha => exact absurd ha (hs q)
  | holds | quiet => exact absurd hr (hs r)
  | continues w _ _ _ ht => exact .inl (execWord_eq_raise ht hs hr hc)
  | starts w rest _ _ _ _ ht => exact .inr ⟨w, rest, execWord_eq_raise ht (by simp) hr hc⟩

/-- Settles O15: the step only raises the condition, and accepting the word before it changes none of
the fields in question. -/
theorem conditionsLeaveStateAlone : Obligations.ConditionsLeaveStateAlone := by
  intro s t r hrst hs hstep hr hc
  obtain ⟨c, r0, r1⟩ := r
  rcases step_eq_raise hrst hs hstep hr hc with rfl | ⟨w, rest, rfl⟩ <;> cases hr <;> simp

end Sys2Proof.Machine
end

section
/-! SUPPORT. The encoder and the decoder as inverses (`30_encoding.md`), the two decode errors, and
the response word and the assembler, each read back. -/

namespace Sys2Proof

/-! ### Decoding an encoded command (R51, R52, R56) -/

/-- No encoded command has a bit that its format reserves, nor an `OP` that is not its own. -/
theorem encodesLegally (i : Instr) : Laws.EncodesLegally.Statement i := by
  cases i with
  | add64 a b => exact Laws.EncodesLegally.add64 a b
  | wmul64 a b => exact Laws.EncodesLegally.wmul64 a b
  | next64 => exact Laws.EncodesLegally.next64
  | fnext64 => exact Laws.EncodesLegally.fnext64
  | seed64 v => exact Laws.EncodesLegally.seed64 v
  | seed32x2 lo hi => exact Laws.EncodesLegally.seed32x2 lo hi
  | setstate n lo hi => exact Laws.EncodesLegally.setstate n lo hi
  | getstate => exact Laws.EncodesLegally.getstate
  | seedent => exact Laws.EncodesLegally.seedent
  | next32 => exact Laws.EncodesLegally.next32
  | bool => exact Laws.EncodesLegally.bool
  | unitdbl => exact Laws.EncodesLegally.unitdbl
  | bounded b => exact Laws.EncodesLegally.bounded b
  | range lo hi => exact Laws.EncodesLegally.range lo hi
  | choose b => exact Laws.EncodesLegally.choose b

/-- The operands of a command are read back from the fields they were put into (R52, R55). -/
theorem withOperands_encode (i : Instr) : i.mnemonic.withOperands (encode i) = i := by
  cases i <;> simp [Instr.mnemonic, Mnemonic.withOperands, encode]

theorem decode_encode (i : Instr) : decode (encode i) = .ok i := by
  obtain ⟨hop, hclear⟩ := encodesLegally i
  rw [decode_of_op hop, if_pos hclear, withOperands_encode]

/-- Settles O1: an encoded word passes both tests of the decoder, and its fields hold the operands.
-/
theorem decodeEncodeRoundTrip : Obligations.DecodeEncodeRoundTrip :=
  fun i => ⟨Laws.instr_wellFormed i, decode_encode i⟩

/-! ### Encoding a decoded command -/

/-- A field whose upper half is 0 is its lower half put into the field (R52). -/
theorem CmdWord.lowField_bLow {w : CmdWord} (h : w.bHigh = 0) : lowField w.bLow = w.b := by
  have hhigh : w.b.toNat / 2 ^ 32 = 0 := by rw [← CmdWord.bHigh_toNat, h]; rfl
  apply BitVec.eq_of_toNat_eq
  rw [lowField_toNat, CmdWord.bLow_toNat]
  omega

theorem CmdWord.lowField_aLow {w : CmdWord} (h : w.aHigh = 0) : lowField w.aLow = w.a := by
  have hhigh : w.a.toNat / 2 ^ 32 = 0 := by rw [← CmdWord.aHigh_toNat, h]; rfl
  apply BitVec.eq_of_toNat_eq
  rw [lowField_toNat, CmdWord.aLow_toNat]
  omega

/-- A word with the `OP` of a command and no reserved bit of its format is that command encoded with
the word's operands: the fields that are not operands are 0 in both. -/
theorem encode_withOperands {m : Mnemonic} {w : CmdWord} (hop : w.op = m.opcode)
    (hclear : m.format.reservedClear w = true) : encode (m.withOperands w) = w := by
  have hw : CmdWord.ofFields m.opcode w.n w.b w.a = w := hop ▸ w.ofFields_fields
  cases m with
  | next64 | fnext64 | getstate | seedent | next32 | bool | unitdbl =>
    obtain ⟨hn, hb, ha⟩ := (Format.reservedClear_z w).mp hclear
    rwa [hn, hb, ha] at hw
  | seed64 =>
    obtain ⟨hn, hb⟩ := (Format.reservedClear_q w).mp hclear
    rwa [hn, hb] at hw
  | add64 | wmul64 => rwa [(Format.reservedClear_qq w).mp hclear] at hw
  | bounded | choose =>
    obtain ⟨hn, hb, ha⟩ := (Format.reservedClear_w w).mp hclear
    rwa [hn, hb, ← CmdWord.lowField_aLow ha] at hw
  | seed32x2 | range =>
    obtain ⟨hn, hb, ha⟩ := (Format.reservedClear_ww w).mp hclear
    rwa [hn, ← CmdWord.lowField_bLow hb, ← CmdWord.lowField_aLow ha] at hw
  | setstate =>
    obtain ⟨hb, ha⟩ := (Format.reservedClear_nww w).mp hclear
    rwa [← CmdWord.lowField_bLow hb, ← CmdWord.lowField_aLow ha] at hw

/-- Settles O2: a decoded word has the `OP` of its command, no reserved bit, and its operands in
their fields. -/
theorem encodeDecodeRoundTrip : Obligations.EncodeDecodeRoundTrip := by
  intro w i h
  obtain ⟨m, hop, hclear, rfl⟩ := decode_ok_cases h
  exact encode_withOperands hop hclear

/-! ### The two decode errors (R58, R59, R164) -/

theorem Mnemonic.ofOpcode_eq_none_iff {op : BitVec 8} :
    Mnemonic.ofOpcode op = none ↔ ∀ m : Mnemonic, op ≠ m.opcode := by
  simp only [Mnemonic.ofOpcode, List.find?_eq_none, Mnemonic.mem_all, forall_const, beq_iff_eq,
    ne_eq, @eq_comm _ op]

/-- The top byte of a word is its `OP`. -/
theorem CmdWord.shiftRight_136_eq_iff (w v : CmdWord) : w >>> 136 = v >>> 136 ↔ w.op = v.op := by
  rw [← BitVec.toNat_inj, ← BitVec.toNat_inj, BitVec.toNat_ushiftRight, BitVec.toNat_ushiftRight,
    Nat.shiftRight_eq_div_pow, Nat.shiftRight_eq_div_pow, CmdWord.op_toNat, CmdWord.op_toNat]

/-- `OP` is defined when it is that of a command (R58). -/
theorem CmdWord.opDefined_iff (w : CmdWord) :
    w.opDefined = true ↔ ∃ m : Mnemonic, w.op = m.opcode := by
  simp only [CmdWord.opDefined, List.any_eq_true, mem_opcodeRows, beq_iff_eq,
    CmdWord.shiftRight_136_eq_iff]
  constructor
  · rintro ⟨r, ⟨m, rfl⟩, hop⟩
    exact ⟨m, by rwa [Mnemonic.row, CmdWord.op_ofFields] at hop⟩
  · rintro ⟨m, hop⟩
    exact ⟨m.row, ⟨m, rfl⟩, by rwa [Mnemonic.row, CmdWord.op_ofFields]⟩

/-- The well-formed words are those that decode (R57, R61). -/
theorem CmdWord.wellFormed_iff (w : CmdWord) : w.wellFormed = true ↔ ∃ i, decode w = .ok i := by
  rw [decodeAgreesWithOpcodeMap.1 w]
  simp only [CmdWord.wellFormed, List.any_eq_true, OpcodeRow.selects, beq_iff_eq]

theorem decode_eq_reservedOp_iff (w : CmdWord) :
    decode w = .error .reservedOp ↔ ∀ m : Mnemonic, w.op ≠ m.opcode := by
  rw [← Mnemonic.ofOpcode_eq_none_iff, decode]
  split
  · next hnone => simp only [hnone]
  · next m hsome => rw [hsome]; split <;> simp

/-- The reserved-bit test is the last one that a word can fail (R164). -/
theorem decode_eq_reservedBit_iff (w : CmdWord) : decode w = .error .reservedBit ↔
    (∃ m : Mnemonic, w.op = m.opcode) ∧ ¬ ∃ i, decode w = .ok i := by
  have hop := decode_eq_reservedOp_iff w
  rcases hdec : decode w with (_ | _) | i
  · simp only [hdec, true_iff] at hop
    simp [hop]
  · simp only [hdec, reduceCtorEq, Except.error.injEq, false_iff, not_forall, not_not] at hop
    simp [hop]
  · simp

/-- Settles O4: the first error is that of no command's `OP`, the second that of an `OP` in the map
and no row selected. -/
theorem decodeErrorOrder : Obligations.DecodeErrorOrder := by
  refine ⟨fun w => ?_, fun w => ?_⟩
  · rw [decode_eq_reservedOp_iff, ← Bool.not_eq_true, CmdWord.opDefined_iff, not_exists]
  · rw [decode_eq_reservedBit_iff, CmdWord.opDefined_iff, ← Bool.not_eq_true,
      CmdWord.wellFormed_iff]

/-- Settles O5: the first five words are the encodings of their commands; the other two have an `OP`
outside the map, and one inside it with no row selected. -/
theorem sampleWordsDecode : Obligations.SampleWordsDecode :=
  ⟨decode_encode (.wmul64 0xFFFFFFFFFFFFFFFE 0xFFFFFFFFFFFFFFFF), decode_encode .fnext64,
    decode_encode (.setstate 2 0x8AF1BAA7 0x27DB6085), decode_encode .unitdbl,
    decode_encode (.range 5 15), (decodeErrorOrder.1 _).mpr (by decide),
    (decodeErrorOrder.2 _).mpr (by decide)⟩

/-- Settles O6: the fields are the digits of the number, and they make up the word. -/
theorem commandWordFields : Obligations.CommandWordFields := by
  refine ⟨fun op n b a => ⟨?_, CmdWord.op_ofFields .., CmdWord.n_ofFields .., CmdWord.b_ofFields ..,
    CmdWord.a_ofFields ..⟩, CmdWord.ofFields_fields⟩
  rw [CmdWord.ofFields_toNat]
  ring

/-! ### The assembler (R62) -/

/-- A source command is well formed when its operands match the widths one by one (R62). -/
theorem SourceCmd.wellFormed_iff (c : SourceCmd) : c.wellFormed = true ↔
    List.Forall₂ (fun x width => x < 2 ^ width) c.operands c.mnemonic.operandWidths := by
  simp [SourceCmd.wellFormed, SourceCmd.arityOk, SourceCmd.operandsFit, List.forall₂_iff_zip]

theorem SourceCmd.wellFormed_of_assemble {c : SourceCmd} {i : Instr} (h : c.assemble = some i) :
    c.wellFormed = true := by
  rw [SourceCmd.assemble] at h
  split at h
  · assumption
  · cases h

/-- A literal that fits its field is the number the field holds. -/
theorem source_of_assemble {c : SourceCmd} {i : Instr} (h : c.assemble = some i) :
    i.source = c := by
  have hwf := SourceCmd.wellFormed_of_assemble h
  have hfit := c.wellFormed_iff.mp hwf
  rw [SourceCmd.assemble, if_pos hwf] at h
  obtain ⟨m, operands⟩ := c
  cases m with
  | next64 | fnext64 | getstate | seedent | next32 | bool | unitdbl =>
    cases hfit
    cases h
    rfl
  | seed64 | bounded | choose =>
    obtain _ | ⟨hx, _ | _⟩ := hfit
    cases h
    simp only [Instr.source, Instr.mnemonic, BitVec.toNat_ofNat, Nat.mod_eq_of_lt hx]
  | add64 | wmul64 | seed32x2 | range =>
    obtain _ | ⟨hx, _ | ⟨hy, _ | _⟩⟩ := hfit
    cases h
    simp only [Instr.source, Instr.mnemonic, BitVec.toNat_ofNat, Nat.mod_eq_of_lt hx,
      Nat.mod_eq_of_lt hy]
  | setstate =>
    obtain _ | ⟨hn, _ | ⟨hx, _ | ⟨hy, _ | _⟩⟩⟩ := hfit
    cases h
    simp only [Instr.source, Instr.mnemonic, BitVec.toNat_ofNat, Nat.mod_eq_of_lt hn,
      Nat.mod_eq_of_lt hx, Nat.mod_eq_of_lt hy]

theorem assemble_source (i : Instr) : i.source.assemble = some i := by
  have hwf : i.source.wellFormed = true := Laws.instr_wellFormed i
  rw [SourceCmd.assemble, if_pos hwf]
  cases i <;> simp only [Instr.source, Instr.mnemonic, BitVec.ofNat_toNat, BitVec.setWidth_eq]

/-- Settles O8: operands that match the widths are what their fields hold, and the source of a
command has such operands. -/
theorem assemblerNeverTruncates : Obligations.AssemblerNeverTruncates :=
  ⟨fun _ _ => source_of_assemble, assemble_source⟩

end Sys2Proof

namespace Sys2Proof.Machine

/-! ### The response word (R53, R156) -/

theorem Status.ofCode_code (s : Status) : Status.ofCode s.code = some s := by
  cases s <;> rfl

theorem Status.code_of_ofCode {c : BitVec 8} {s : Status} (h : Status.ofCode c = some s) :
    s.code = c := by
  simpa using List.find?_some h

/-- The codes that are never produced (R156). -/
theorem Status.ofCode_eq_none_iff (c : BitVec 8) :
    Status.ofCode c = none ↔ 0x04 ≤ c.toNat ∧ c.toNat ≤ 0xFE := by
  have hlt := c.isLt
  simp only [Status.ofCode, List.find?_eq_none, List.mem_cons, List.not_mem_nil, or_false,
    forall_eq_or_imp, forall_eq, beq_iff_eq, Status.code, ← BitVec.toNat_inj,
    BitVec.ofNat_eq_ofNat, BitVec.reduceToNat]
  omega

theorem Response.word_toNat (r : Response) :
    r.word.toNat = (r.status.code.toNat * 2 ^ 64 + r.r1.toNat) * 2 ^ 64 + r.r0.toNat := by
  simp only [Response.word, toNat_append_eq]

/-! A response payload as its three fields. -/

theorem rspWord_status_toNat (w : RspWord) :
    (w.extractLsb' 128 8).toNat = w.toNat / 2 ^ 128 := by
  have := w.isLt
  rw [BitVec.extractLsb'_toNat, Nat.shiftRight_eq_div_pow]
  omega

theorem rspWord_fields (w : RspWord) :
    w.extractLsb' 128 8 ++ w.extractLsb' 64 64 ++ w.extractLsb' 0 64 = w := by
  have := w.isLt
  apply BitVec.eq_of_toNat_eq
  simp only [toNat_append_eq, BitVec.extractLsb'_toNat, Nat.shiftRight_eq_div_pow]
  omega

theorem Response.fields_word (r : Response) : r.word.extractLsb' 128 8 = r.status.code ∧
    r.word.extractLsb' 64 64 = r.r1 ∧ r.word.extractLsb' 0 64 = r.r0 := by
  have := r.status.code.isLt
  have := r.r1.isLt
  have := r.r0.isLt
  simp only [← BitVec.toNat_inj, BitVec.extractLsb'_toNat, Nat.shiftRight_eq_div_pow,
    Response.word_toNat]
  omega

theorem Response.ofWord_word (r : Response) : Response.ofWord r.word = some r := by
  obtain ⟨hstatus, hr1, hr0⟩ := r.fields_word
  rw [Response.ofWord, hstatus, hr1, hr0, Status.ofCode_code]
  rfl

theorem Response.word_of_ofWord {w : RspWord} {r : Response} (h : Response.ofWord w = some r) :
    r.word = w := by
  obtain ⟨c, hc, rfl⟩ := Option.map_eq_some_iff.mp h
  rw [Response.word, Status.code_of_ofCode hc, rspWord_fields]

/-- Settles O7: the payload is its three fields, and the status byte alone decides whether it is a
response. -/
theorem responseWordRoundTrip : Obligations.ResponseWordRoundTrip := by
  refine ⟨fun r => ⟨?_, r.ofWord_word⟩, fun w r => Response.word_of_ofWord,
    ⟨rfl, rfl, rfl, rfl, rfl⟩, fun w => ?_⟩
  · rw [r.word_toNat]
    ring
  · rw [Response.ofWord, Option.map_eq_none_iff, Status.ofCode_eq_none_iff, rspWord_status_toNat]

end Sys2Proof.Machine
end

section
/-! SUPPORT. What a step keeps, loses and never does: the frame of a command, the invariant between
steps, the ports and the reset (`20_memory.md`, `70_reset_and_hazards.md`). -/

namespace Sys2Proof.Machine

/-! ### The frame of a command and of a word (R20, R29) -/

/-- A command leaves everything but `S`, the entropy port and the activity as it is. -/
theorem ExecCase.withRestOf_eq {i : Instr} {s t : State} (h : ExecCase i s t) :
    t.withRestOf s = t := by
  cases h <;> rfl

/-- A word leaves everything but `S`, the entropy port and the activity as it is, whether it encodes
a command or not. -/
theorem execWord_withRestOf {w : CmdWord} {s t : State} (h : execWord w s = .next t) :
    t.withRestOf s = t := by
  rcases execWord_cases h with ⟨i, -, hi⟩ | ⟨e, -, rfl⟩
  · exact (exec_next_cases hi).withRestOf_eq
  · rfl

theorem execWord_cmdPort {w : CmdWord} {s t : State} (h : execWord w s = .next t) :
    t.cmdPort = s.cmdPort := by
  rw [← execWord_withRestOf h, State.withRestOf]

theorem execWord_taken {w : CmdWord} {s t : State} (h : execWord w s = .next t) :
    t.taken = s.taken := by
  rw [← execWord_withRestOf h, State.withRestOf]

theorem execWord_of_decode {w : CmdWord} {i : Instr} (h : decode w = .ok i) (s : State) :
    execWord w s = exec i s := by
  rw [execWord, h]

theorem execWord_of_not_wellFormed {w : CmdWord} (h : w.wellFormed = false) (s : State) :
    execWord w s = .next (s.raise .illegalCommand) := by
  rw [← Bool.not_eq_true, CmdWord.wellFormed_iff] at h
  rcases hdec : decode w with e | i
  · rw [execWord, hdec]
  · exact absurd ⟨i, hdec⟩ h

theorem exists_execWord (w : CmdWord) (s : State) : ∃ t, execWord w s = .next t := by
  rcases hdec : decode w with e | i
  · exact ⟨_, by rw [execWord, hdec]⟩
  · obtain ⟨t, ht, -⟩ := exec_cases i s
    exact ⟨t, by rw [execWord_of_decode hdec, ht]⟩

/-! ### The invariant (R172, R53) -/

/-- The invariant speaks of the activity and of the responses taken, and of nothing else. -/
theorem State.Inv.congr {s t : State} (h : s.Inv) (ha : t.activity = s.activity)
    (ht : t.taken = s.taken) : t.Inv where
  waiting := ha ▸ h.waiting
  pending := ha ▸ h.pending
  taken := ht ▸ h.taken

/-- A block with no command in flight meets the invariant when the responses taken are good. -/
theorem State.inv_of_idle {s : State} (ha : s.activity = .idle) (ht : ∀ r ∈ s.taken, r.Good) :
    s.Inv where
  waiting w hw := by simp [ha] at hw
  pending r hr := by simp [ha] at hr
  taken := ht

/-- A block that holds a good response meets the invariant when the responses taken are good. -/
theorem State.inv_of_responding {s : State} {r : Response} (ha : s.activity = .responding r)
    (hr : r.Good) (ht : ∀ q ∈ s.taken, q.Good) : s.Inv where
  waiting w hw := by simp [ha] at hw
  pending q hq := by
    rw [ha] at hq
    cases hq
    exact hr
  taken := ht

/-- A block whose word in flight may wait meets the invariant when the responses taken are good. -/
theorem State.inv_of_mayWait {s : State} {w : CmdWord} {i : Instr} (ha : s.activity = .executing w)
    (hdec : decode w = .ok i) (hmay : Instr.mayWait i) (ht : ∀ r ∈ s.taken, r.Good) : s.Inv where
  waiting v hv := by
    rw [ha] at hv
    cases hv
    exact ⟨i, hdec, hmay⟩
  pending r hr := by simp [ha] at hr
  taken := ht

/-- Executing the word in flight ends in a good response, or leaves a command that may wait. -/
theorem execWord_inv {w : CmdWord} {s t : State} (ha : s.activity = .executing w)
    (ht : ∀ r ∈ s.taken, r.Good) (h : execWord w s = .next t) : t.Inv := by
  rcases execWord_cases h with ⟨i, hdec, hi⟩ | ⟨e, -, rfl⟩
  · cases exec_next_cases hi with
    | completes v ent r good => exact State.inv_of_responding rfl good ht
    | rejects may => exact State.inv_of_mayWait ha hdec may ht
    | waits isSeedent =>
      subst isSeedent
      exact State.inv_of_mayWait ha hdec trivial ht
  · exact State.inv_of_responding rfl (conditionResponse_good _) ht

/-- Settles O23, by what the step did: a word executes, or a response that is good is taken, or the
block becomes idle, or nothing changes. -/
theorem everyStepKeepsInv : Obligations.EveryStepKeepsInv := by
  intro s t hs h
  cases step_next_cases h with
  | resets => exact State.inv_of_idle rfl hs.taken
  | takes r _ ha =>
    refine State.inv_of_idle rfl fun q hq => ?_
    rcases List.mem_append.mp hq with hold | hnew
    · exact hs.taken q hold
    · exact List.mem_singleton.mp hnew ▸ hs.pending r ha
  | holds | quiet => exact hs
  | continues w _ _ ha ht => exact execWord_inv ha hs.taken ht
  | starts w rest _ _ _ _ ht => exact execWord_inv (State.accept_activity ..) hs.taken ht

/-- Settles O22: the block is idle and no response has been taken. -/
theorem invHoldsAtReset : Obligations.InvHoldsAtReset :=
  State.inv_of_idle rfl fun _ hr => absurd hr List.not_mem_nil

/-! ### The step, phase by phase -/

theorem step_of_rst {s : State} (h : s.rst = true) : step s = .next s.applyReset := by
  simp [step, blockStep, State.phase, h]

theorem blockStep_of_responding {s : State} {r : Response} (hr : s.rst = false)
    (ha : s.activity = .responding r) : blockStep s = (s.offerResponse r).map .next := by
  simp [blockStep, State.phase, hr, ha]

theorem step_of_responding_ready {s : State} {r : Response} (hr : s.rst = false)
    (ha : s.activity = .responding r) (hready : s.rspReady = true) :
    step s = .next (s.takeResponse r) := by
  refine step_of_blockStep ?_
  rw [blockStep_of_responding hr ha, State.offerResponse, if_pos hready]
  rfl

theorem blockStep_of_held {s : State} {r : Response} (hr : s.rst = false)
    (ha : s.activity = .responding r) (hready : s.rspReady = false) : blockStep s = none := by
  rw [blockStep_of_responding hr ha, State.offerResponse, hready]
  rfl

theorem blockStep_of_quiet {s : State} (h : s.Idle) (hc : s.cmdPort = []) : blockStep s = none := by
  obtain ⟨ha, hr⟩ := h
  simp [blockStep, State.phase, hr, ha, hc]

/-- Settles O9: what is offered or in flight executes, and it decodes to the command. -/
theorem stepRunsDecodedCommand : Obligations.StepRunsDecodedCommand :=
  ⟨fun _ _ _ _ h hdec => (step_of_offers h).trans (execWord_of_decode hdec _),
    fun _ _ _ hr ha hdec => (step_of_executing hr ha).trans (execWord_of_decode hdec _)⟩

/-- Settles O10: a word that is not well formed raises the condition on the state that accepted it.
-/
theorem illegalCommandAnswered : Obligations.IllegalCommandAnswered :=
  fun _ _ _ h hw => (step_of_offers h).trans (execWord_of_not_wellFormed hw _)

/-- Settles O12: the response is taken by a ready host, and otherwise the block has no step. -/
theorem responseHeldUntilTaken : Obligations.ResponseHeldUntilTaken := by
  intro s r hr ha
  split
  · next hready => exact step_of_responding_ready hr ha hready
  · next hready =>
    exact step_of_no_blockStep (blockStep_of_held hr ha (Bool.eq_false_iff.mpr hready))

/-- Settles O13: such a block has no step. -/
theorem idleBlockKeepsState : Obligations.IdleBlockKeepsState :=
  fun _ h hc => step_of_no_blockStep (blockStep_of_quiet h hc)

theorem exists_step (s : State) : ∃ t, step s = .next t := by
  rcases s.phase_cases with ⟨hr, -⟩ | ⟨hr, r, ha, -⟩ | ⟨hr, w, ha, -⟩ | ⟨hr, ha, hc, -⟩ |
    ⟨hr, ha, w, rest, hc, -⟩
  · exact ⟨_, step_of_rst hr⟩
  · exact ⟨_, responseHeldUntilTaken s r hr ha⟩
  · rw [step_of_executing hr ha]
    exact exists_execWord w s
  · exact ⟨_, idleBlockKeepsState s ⟨ha, hr⟩ hc⟩
  · rw [step_of_offers ⟨⟨ha, hr⟩, hc⟩]
    exact exists_execWord w _

/-- The block waits for the host or for the entropy source: a response is held, nothing is offered,
or a draw is not answered (R38, R114, R171). -/
theorem blockStep_eq_none_iff (s : State) : blockStep s = none ↔ s.rst = false ∧
    (((∃ r, s.activity = .responding r) ∧ s.rspReady = false) ∨
      (s.activity = .idle ∧ s.cmdPort = []) ∨
      ∃ w, s.activity = .executing w ∧ decode w = .ok .seedent ∧ s.entPort.length < 2) := by
  constructor
  · intro h
    rcases s.phase_cases with ⟨hr, hp⟩ | ⟨hr, r, ha, -⟩ | ⟨hr, w, ha, hp⟩ | ⟨hr, ha, hc, -⟩ |
      ⟨hr, ha, w, rest, hc, hp⟩
    · simp [blockStep, hp] at h
    · refine ⟨hr, .inl ⟨⟨r, ha⟩, ?_⟩⟩
      rw [blockStep_of_responding hr ha, Option.map_eq_none_iff] at h
      simpa [State.offerResponse] using h
    · cases hdraw : s.drawUnanswered with
      | true => exact ⟨hr, .inr (.inr ⟨w, ha, (s.drawUnanswered_iff ha).mp hdraw⟩)⟩
      | false => simp [blockStep_of_executing hr ha hdraw] at h
    · exact ⟨hr, .inr (.inl ⟨ha, hc⟩)⟩
    · simp [blockStep, hp] at h
  · rintro ⟨hr, ⟨⟨r, ha⟩, hready⟩ | ⟨ha, hc⟩ | ⟨w, ha, hdraw⟩⟩
    · exact blockStep_of_held hr ha hready
    · exact blockStep_of_quiet ⟨ha, hr⟩ hc
    · exact blockStep_of_drawUnanswered hr ha ((s.drawUnanswered_iff ha).mpr hdraw)

/-- Settles O11: each phase answers a next state, and three of them are without a step. -/
theorem stepNeverStops : Obligations.StepNeverStops :=
  ⟨exists_step, fun _ _ => step_of_blockStep, fun _ => step_of_no_blockStep, blockStep_eq_none_iff⟩

/-! ### The command port (R37) -/

/-- Settles O14: a word leaves the port only where it starts, and executing it leaves the rest. -/
theorem noAcceptanceWhileInFlight : Obligations.NoAcceptanceWhileInFlight := by
  intro s t h
  cases step_next_cases h with
  | resets | takes | holds | quiet => exact .inl rfl
  | continues w _ _ _ ht => exact .inl (execWord_cmdPort ht)
  | starts w rest _ hr ha hc ht =>
    have hport : t.cmdPort = rest := execWord_cmdPort ht
    exact .inr ⟨⟨ha, hr⟩, w, hport ▸ hc⟩

/-! ### The entropy port (R39, R113, R177) -/

/-- The step from `s` to `t` took two values from the port into `S`, the first one low. -/
def State.SeedsFrom (s t : State) : Prop :=
  ∃ e0 e1, s.entPort = e0 :: e1 :: t.entPort ∧ t.S = joinHalves e0 e1 ∧
    t.activity = .responding (okResponse 0 0)

/-- Only a `SEEDENT` takes entropy. -/
theorem ExecCase.entPort_cases {i : Instr} {s t : State} (h : ExecCase i s t) :
    t.entPort = s.entPort ∨ (i = .seedent ∧ s.SeedsFrom t) := by
  cases h with
  | completes v ent r _ _ noEntropy entropy =>
    by_cases hi : i = .seedent
    · obtain ⟨e0, e1, he, rfl, rfl⟩ := entropy hi
      exact .inr ⟨hi, e0, e1, he, rfl, rfl⟩
    · exact .inl (noEntropy hi)
  | rejects | waits => exact .inl rfl

theorem execWord_entPort_cases {w : CmdWord} {s t : State} (h : execWord w s = .next t) :
    t.entPort = s.entPort ∨ (decode w = .ok .seedent ∧ s.SeedsFrom t) := by
  rcases execWord_cases h with ⟨i, hdec, hi⟩ | ⟨e, -, rfl⟩
  · exact (exec_next_cases hi).entPort_cases.imp_right fun ⟨hseed, ht⟩ => ⟨hseed ▸ hdec, ht⟩
  · exact .inl rfl

theorem step_entPort_cases {s t : State} (h : step s = .next t) :
    t.entPort = s.entPort ∨
      (s.rst = false ∧ (∃ w, decode w = .ok .seedent ∧
        (s.activity = .executing w ∨ (s.activity = .idle ∧ s.cmdPort = w :: t.cmdPort))) ∧
        s.SeedsFrom t) := by
  cases step_next_cases h with
  | resets | takes | holds | quiet => exact .inl rfl
  | continues w _ hr ha ht =>
    exact (execWord_entPort_cases ht).imp_right fun ⟨hdec, hseed⟩ =>
      ⟨hr, ⟨w, hdec, .inl ha⟩, hseed⟩
  | starts w rest _ hr ha hc ht =>
    have hport : t.cmdPort = rest := execWord_cmdPort ht
    exact (execWord_entPort_cases ht).imp_right fun ⟨hdec, hseed⟩ =>
      ⟨hr, ⟨w, hdec, .inr ⟨ha, hport ▸ hc⟩⟩, hseed⟩

/-- Settles O16: a step takes entropy by a `SEEDENT` alone, and of the host's acts only an asserted
`rst` does, where the port is ready. -/
theorem entropyTakenOnlyBySeedent : Obligations.EntropyTakenOnlyBySeedent := by
  refine ⟨fun s t => step_entPort_cases, fun s h => ?_, fun s h => ?_,
    fun s => ⟨fun _ => rfl, fun _ => rfl, fun _ => rfl⟩⟩
  · exact State.untakenEntropy_of_ready (s.entReady_iff.mpr h)
  · exact State.untakenEntropy_of_not_ready (Bool.eq_false_iff.mpr (mt s.entReady_iff.mp h))

/-! ### The register `S` (R22) -/

/-- The commands that only read the state: `ADD64`, `WMUL64` and `GETSTATE`. -/
def Instr.ReadOnly (i : Instr) : Prop :=
  i = .getstate ∨ (∃ a b, i = .add64 a b) ∨ ∃ a b, i = .wmul64 a b

/-- A command that changes `S` writes it and completes with `OK`. -/
theorem ExecCase.of_S_ne {i : Instr} {s t : State} (h : ExecCase i s t) (hS : t.S ≠ s.S) :
    (∃ r, t.activity = .responding r ∧ r.status = .ok) ∧ ¬ Instr.ReadOnly i := by
  cases h with
  | completes v ent r _ failed _ _ readOnly =>
    exact ⟨⟨r, rfl, by_contra fun hc => hS (failed hc).1⟩, fun hread => hS (readOnly hread)⟩
  | rejects | waits => exact absurd rfl hS

/-- A word that changes `S` encodes a command that does. -/
theorem execWord_of_S_ne {w : CmdWord} {s t : State} (h : execWord w s = .next t)
    (hS : t.S ≠ s.S) : (∃ r, t.activity = .responding r ∧ r.status = .ok) ∧
      ∃ i, decode w = .ok i ∧
        i ≠ .getstate ∧ (∀ a b, i ≠ .add64 a b) ∧ ∀ a b, i ≠ .wmul64 a b := by
  rcases execWord_cases h with ⟨i, hdec, hi⟩ | ⟨e, -, rfl⟩
  · obtain ⟨hok, hwrites⟩ := (exec_next_cases hi).of_S_ne hS
    simp only [Instr.ReadOnly, not_or, not_exists] at hwrites
    exact ⟨hok, i, hdec, hwrites⟩
  · exact absurd rfl hS

/-- Settles O17: without a reset only an executing word changes `S`, and its command then completes
with `OK` and is not one that only reads. -/
theorem onlyCompletionOrResetChangesS : Obligations.OnlyCompletionOrResetChangesS := by
  intro s t h hS
  cases step_next_cases h with
  | resets hr => exact .inl hr
  | takes | holds | quiet => exact absurd rfl hS
  | continues w _ _ ha ht =>
    obtain ⟨hok, i, hdec, hwrites⟩ := execWord_of_S_ne ht hS
    exact .inr ⟨by simp [ha], hok, w, i, hdec, .inl ha, hwrites⟩
  | starts w rest _ _ ha hc ht =>
    obtain ⟨hok, i, hdec, hwrites⟩ := execWord_of_S_ne ht hS
    have hport : t.cmdPort = rest := execWord_cmdPort ht
    exact .inr ⟨by simp [ha], hok, w, i, hdec, .inr (hport ▸ hc), hwrites⟩

/-! ### Reset and the host's acts (R175 to R177, R189) -/

/-- Settles O24: the acts touch the inputs, so the invariant stays; only an asserted `rst` withdraws
values, where the port is ready. -/
theorem hostActsKeepInv : Obligations.HostActsKeepInv := by
  intro s hs t ht
  rcases ht with rfl | ⟨w, rfl⟩ | ⟨e, rfl⟩ | ⟨b, rfl⟩
  · refine ⟨hs.congr rfl rfl, rfl, rfl, rfl, rfl, List.prefix_rfl, ?_⟩
    cases hready : s.entReady with
    | true => exact .inr ⟨rfl, rfl, State.untakenEntropy_of_ready hready⟩
    | false =>
      rw [State.assertRst_entPort, State.untakenEntropy_of_not_ready hready]
      exact .inl List.prefix_rfl
  · exact ⟨hs.congr rfl rfl, rfl, rfl, rfl, rfl, List.prefix_append .., .inl List.prefix_rfl⟩
  · exact ⟨hs.congr rfl rfl, rfl, rfl, rfl, rfl, List.prefix_rfl, .inl (List.prefix_append ..)⟩
  · exact ⟨hs.congr rfl rfl, rfl, rfl, rfl, rfl, List.prefix_rfl, .inl List.prefix_rfl⟩

/-- Delivered values stand at the end of the port, in the order of their delivery. -/
theorem State.foldl_deliver (later : List Half) (s : State) :
    later.foldl State.deliver s = { s with entPort := s.entPort ++ later } := by
  induction later generalizing s with
  | nil => rw [List.append_nil]; rfl
  | cons e later ih => rw [List.foldl_cons, ih, State.deliver, List.append_assoc]; rfl

/-- The reset that follows an asserted `rst` and deliveries keeps what was not taken. -/
theorem step_foldl_deliver_assertRst (s : State) (later : List Half) :
    step (later.foldl State.deliver s.assertRst) = .next { s.applyReset with
      entPort := s.untakenEntropy ++ later } := by
  rw [State.foldl_deliver, step_of_rst rfl]
  rfl

/-- Settles O25: a reset drops the activity and renews `S`, and what an asserted `rst` leaves of the
entropy is still there. -/
theorem resetEvent : Obligations.ResetEvent := by
  refine ⟨fun s hr => ⟨?_, ?_, State.entReady_of_rst hr, step_of_rst hr⟩,
    fun s later => ⟨fun hready => ?_, fun hready => ?_⟩⟩
  · simp [State.cmdReady, hr]
  · simp [State.rspOffered, hr]
  · rw [step_foldl_deliver_assertRst, State.untakenEntropy_of_ready hready]
    rfl
  · rw [step_foldl_deliver_assertRst, State.untakenEntropy_of_not_ready hready]
    rfl

/-- Settles O26: the reset state drives these signals, and its command port is empty. -/
theorem resetLeavesBlockIdle : Obligations.ResetLeavesBlockIdle :=
  ⟨⟨rfl, rfl⟩, rfl, rfl, rfl, fun _ => ⟨⟨rfl, rfl⟩, rfl⟩⟩

end Sys2Proof.Machine
end

section
/-! SUPPORT. Each command in every state: the state it completes in, the condition it raises, its
frame, and when it does not complete; and the period of the states. -/

namespace Sys2Proof.Machine

/-! ### Completion of the commands with one outcome (R83, R84, R97, R98, R106 to R113) -/

/-- Settles O33: both meanings are one `OK` response on the state. -/
theorem arithmeticMeaningsComplete : Obligations.ArithmeticMeaningsComplete :=
  ⟨exec_add64, exec_wmul64⟩

/-- Settles O39: both meanings write the successor, which is the wrapped sum, and respond. -/
theorem rawStepMeaningsComplete : Obligations.RawStepMeaningsComplete :=
  ⟨exec_next64, exec_fnext64⟩

/-- With two values on the port a `SEEDENT` takes them into `S`, the first one low (R113). -/
theorem exec_seedent_of_two {s : State} {e0 e1 : Half} {more : List Half}
    (h : s.entPort = e0 :: e1 :: more) : exec .seedent s
      = .next (((s.withEntropy more).withS (joinHalves e0 e1)).respond .ok 0 0) := by
  rw [exec_seedent, State.seedFromEntropy_of_two h]

/-- Settles O45: the halves are joined high on low, and a `SEEDENT` finds both values. -/
theorem seedingMeaningsComplete : Obligations.SeedingMeaningsComplete := by
  refine ⟨exec_seed64, exec_seed32x2, fun lo hi s => ?restore, fun s => ?get,
    fun _ _ _ _ => exec_seedent_of_two⟩
  case restore =>
    rw [exec_setstate, if_pos rfl]
    rfl
  case get =>
    rw [exec_getstate, zext64_lo32, zext64_hi32]
    rfl

/-- The top 53 bits of a word as a 53-bit integer. -/
theorem ofNat_top53_toNat (v : Word) :
    (BitVec.ofNat 53 (v.toNat / 2 ^ 11)).toNat = v.toNat / 2 ^ 11 := by
  have := v.isLt
  rw [BitVec.toNat_ofNat]
  omega

/-- Settles O50: each meaning is one step whose output is folded, and the fold of `UNITDBL` is an
exact double. -/
theorem fixedDrawMeaningsComplete : Obligations.FixedDrawMeaningsComplete := by
  intro s
  refine ⟨exec_next32 s, exec_bool s, _, ?_, exec_unitdbl s⟩
  have hdouble := isDouble53_dbl53 (.ofNat 53 ((stepPrecise Config.params s.S).2.toNat / 2 ^ 11))
  rwa [ofNat_top53_toNat] at hdouble

/-! ### The bounded-sampling commands (R144 to R148) -/

/-- The command passes its operand test and answers `low` plus a value below `bound`. -/
def Instr.Samples (i : Instr) (low bound : Half) : Prop :=
  (i = .bounded bound ∧ bound ≠ 0 ∧ low = 0) ∨ (i = .choose bound ∧ bound ≠ 0 ∧ low = 0) ∨
    ∃ max, i = .range low max ∧ low < max ∧ bound = max - low

theorem Instr.Samples.ne_seedent {i : Instr} {low bound : Half} (h : Instr.Samples i low bound) :
    i ≠ .seedent := by
  rcases h with ⟨rfl, -⟩ | ⟨rfl, -⟩ | ⟨max, rfl, -⟩ <;> simp

theorem not_toNat_le_of_lt {lo hi : Half} (h : lo < hi) : ¬ hi.toNat ≤ lo.toNat :=
  Nat.not_le.mpr (BitVec.lt_def.mp h)

theorem Instr.Samples.bound_ne_zero {i : Instr} {low bound : Half} (h : Instr.Samples i low bound) :
    bound ≠ 0 := by
  rcases h with ⟨-, hb, -⟩ | ⟨-, hb, -⟩ | ⟨max, -, hlt, rfl⟩
  · exact hb
  · exact hb
  · exact sub_ne_zero_of_not_le (not_toNat_le_of_lt hlt)

/-- The sum of `low` and a result below the bound does not wrap. -/
theorem Instr.Samples.add_toNat {i : Instr} {low bound r : Half} (h : Instr.Samples i low bound)
    (hr : r < bound) : (low + r).toNat = low.toNat + r.toNat := by
  rcases h with ⟨-, -, rfl⟩ | ⟨-, -, rfl⟩ | ⟨max, -, hlt, rfl⟩
  · simp
  · simp
  · exact (add_toNat_of_lt_sub (not_toNat_le_of_lt hlt) hr).1

/-- After its operand test such a command is the engine and an addition. -/
theorem Instr.Samples.exec_eq {i : Instr} {low bound : Half} (h : Instr.Samples i low bound)
    (s : State) : exec i s = .next (s.sampleBounded bound fun r => low + r) := by
  have hid : (fun r : Half => 0 + r) = id := funext BitVec.zero_add
  rcases h with ⟨rfl, hb, rfl⟩ | ⟨rfl, hb, rfl⟩ | ⟨max, rfl, hlt, rfl⟩
  · rw [exec_bounded, if_neg hb, hid]
  · rw [exec_choose, if_neg hb, hid]
  · rw [exec_range, if_neg (not_toNat_le_of_lt hlt)]

/-- The commands that may wait are `SEEDENT` and the bounded ones that pass their test (R172). -/
theorem Instr.samples_of_mayWait {i : Instr} (h : Instr.mayWait i) (hne : i ≠ .seedent) :
    ∃ low bound, Instr.Samples i low bound := by
  cases i with
  | bounded b => exact ⟨0, b, .inl ⟨rfl, h, rfl⟩⟩
  | choose b => exact ⟨0, b, .inr (.inl ⟨rfl, h, rfl⟩)⟩
  | range lo hi => exact ⟨lo, hi - lo, .inr (.inr ⟨hi, rfl, h, rfl⟩)⟩
  | seedent => exact absurd rfl hne
  | _ => exact h.elim

/-- A bounded-sampling command completes at its first accepted draw (R139, R143). -/
theorem Instr.Samples.exec_of_firstAccepted {i : Instr} {low bound : Half}
    (h : Instr.Samples i low bound) {s : State} {k : Nat}
    (hk : FirstAccepted Config.params s.S bound k) : exec i s
      = .next ((s.withS (stateAfter Config.params s.S (k + 1))).respond .ok
          (.ofNat 64 (low.toNat + (resultAt Config.params s.S bound k).toNat)) 0) := by
  rw [h.exec_eq, State.sampleBounded_of_firstAccepted h.bound_ne_zero hk,
    h.add_toNat (resultAt_lt _ _ h.bound_ne_zero k)]

/-- A bounded-sampling command whose result is an index, not an offset from `low`. -/
theorem Instr.Samples.exec_index_of_firstAccepted {i : Instr} {bound : Half}
    (h : Instr.Samples i 0 bound) {s : State} {k : Nat}
    (hk : FirstAccepted Config.params s.S bound k) : exec i s
      = .next ((s.withS (stateAfter Config.params s.S (k + 1))).respond .ok
          (.ofNat 64 (resultAt Config.params s.S bound k).toNat) 0) := by
  rw [h.exec_of_firstAccepted hk, BitVec.ofNat_eq_ofNat, BitVec.toNat_ofNat, Nat.zero_mod,
    Nat.zero_add]

/-- A bounded-sampling command that never accepts leaves the state as it is (R143). -/
theorem Instr.Samples.exec_of_neverAccepts {i : Instr} {low bound : Half}
    (h : Instr.Samples i low bound) {s : State} (hn : NeverAccepts Config.params s.S bound) :
    exec i s = .next s := by
  rw [h.exec_eq, State.sampleBounded_of_neverAccepts h.bound_ne_zero hn]

/-- Settles O57: the three commands are one case, and a result below the bound stays below `max`
when `min` is added. -/
theorem boundedMeaningsComplete : Obligations.BoundedMeaningsComplete := by
  refine ⟨fun b s k hb hk => ?_, fun lo hi s k hlt hk => ?_⟩
  · have hbounded : Instr.Samples (.bounded b) 0 b := .inl ⟨rfl, hb, rfl⟩
    have hchoose : Instr.Samples (.choose b) 0 b := .inr (.inl ⟨rfl, hb, rfl⟩)
    exact ⟨_, rfl, resultAt_lt _ _ hb k, hbounded.exec_index_of_firstAccepted hk,
      (hchoose.exec_eq s).trans (hbounded.exec_eq s).symm⟩
  · have hrange : Instr.Samples (.range lo hi) lo (hi - lo) := .inr (.inr ⟨hi, rfl, hlt, rfl⟩)
    have hr := resultAt_lt Config.params s.S hrange.bound_ne_zero k
    obtain ⟨hsum, hmax⟩ := add_toNat_of_lt_sub (not_toNat_le_of_lt hlt) hr
    refine ⟨lo + resultAt Config.params s.S (hi - lo) k, hsum, ?_, ?_, ?_⟩
    · rw [BitVec.le_def, hsum]
      exact Nat.le_add_right ..
    · rwa [BitVec.lt_def, hsum]
    · rw [hrange.exec_of_firstAccepted hk, hsum]
      rfl

/-! ### The operand conditions (R157 to R159) -/

/-- The status with which a command responds, if it does: the condition of its operands, else `OK`.
-/
def Instr.condition : Instr → Status
  | .setstate n _ _ => if n = 2 then .ok else .invalidSeedShape
  | .bounded b => if b = 0 then .invalidRange else .ok
  | .range lo hi => if hi.toNat ≤ lo.toNat then .invalidRange else .ok
  | .choose b => if b = 0 then .emptyCollection else .ok
  | _ => .ok

theorem State.sampleBounded_status {s : State} {b : Half} {f : Half → Half} {r : Response}
    (hs : ∀ q, s.activity ≠ .responding q)
    (hr : (s.sampleBounded b f).activity = .responding r) : r.status = .ok := by
  rcases s.sampleBounded_cases b f with ⟨v, x, -, h⟩ | ⟨-, h⟩
  · rw [h] at hr
    cases hr
    rfl
  · exact absurd (h ▸ hr) (hs r)

/-- An operand test before the engine: the condition exactly when it fails. -/
theorem State.ite_raise_sampleBounded_status {s : State} {C : Prop} [Decidable C] {c : Status}
    {b : Half} {f : Half → Half} {r : Response} (hs : ∀ q, s.activity ≠ .responding q)
    (hr : (if C then s.raise c else s.sampleBounded b f).activity = .responding r) :
    r.status = if C then c else .ok := by
  split at hr
  · next hC =>
    cases hr
    exact (if_pos hC).symm
  · next hC => exact (State.sampleBounded_status hs hr).trans (if_neg hC).symm

/-- A command in flight responds with the status that its operands decide. -/
theorem exec_status {i : Instr} {s t : State} {r : Response} (hs : ∀ q, s.activity ≠ .responding q)
    (h : exec i s = .next t) (hr : t.activity = .responding r) : r.status = Instr.condition i := by
  cases i with
  | bounded | range | choose =>
    cases h
    exact State.ite_raise_sampleBounded_status hs hr
  | setstate n lo hi =>
    rw [exec_setstate] at h
    cases h
    split at hr
    · next hn =>
      cases hr
      exact (if_pos hn).symm
    · next hn =>
      cases hr
      exact (if_neg hn).symm
  | seedent =>
    cases h
    rcases s.seedFromEntropy_cases with ⟨e0, e1, rest, -, h⟩ | ⟨-, h⟩
    · rw [h] at hr
      cases hr
      rfl
    · exact absurd (h ▸ hr) (hs r)
  | _ =>
    cases h
    cases hr
    rfl

/-- Which operands decide which condition. -/
theorem Instr.condition_cases (i : Instr) :
    Instr.condition i = .ok ∨
      (Instr.condition i = .invalidSeedShape ∧ ∃ n lo hi, i = .setstate n lo hi ∧ n ≠ 2) ∨
      (Instr.condition i = .invalidRange ∧
        (i = .bounded 0 ∨ ∃ lo hi, i = .range lo hi ∧ hi.toNat ≤ lo.toNat)) ∨
      (Instr.condition i = .emptyCollection ∧ i = .choose 0) := by
  cases i with
  | setstate n lo hi =>
    by_cases hn : n = 2
    · exact .inl (if_pos hn)
    · exact .inr (.inl ⟨if_neg hn, n, lo, hi, rfl, hn⟩)
  | bounded b =>
    by_cases hb : b = 0
    · exact .inr (.inr (.inl ⟨if_pos hb, .inl (hb ▸ rfl)⟩))
    · exact .inl (if_neg hb)
  | range lo hi =>
    by_cases hle : hi.toNat ≤ lo.toNat
    · exact .inr (.inr (.inl ⟨if_pos hle, .inr ⟨lo, hi, rfl, hle⟩⟩))
    · exact .inl (if_neg hle)
  | choose b =>
    by_cases hb : b = 0
    · exact .inr (.inr (.inr ⟨if_pos hb, hb ▸ rfl⟩))
    · exact .inl (if_neg hb)
  | _ => exact .inl rfl

/-- Settles O58: the failed tests raise, and conversely a response has the status of the command's
operands. -/
theorem operandConditions : Obligations.OperandConditions := by
  refine ⟨fun n lo hi s hn => ?_, fun s => rfl, fun lo hi s hle => ?_, fun s => rfl,
    fun i s t r hs h hr => ?_⟩
  · rw [exec_setstate, if_neg hn]
    rfl
  · rw [exec_range, if_pos hle]
    rfl
  · rw [exec_status hs h hr]
    rcases Instr.condition_cases i with hc | ⟨hc, hi⟩ | ⟨hc, hi⟩ | ⟨hc, hi⟩ <;> rw [hc]
    · exact ⟨nofun, nofun, nofun, nofun⟩
    · exact ⟨fun _ => hi, nofun, nofun, nofun⟩
    · exact ⟨nofun, fun _ => hi, nofun, nofun⟩
    · exact ⟨nofun, nofun, fun _ => hi, nofun⟩

/-! ### What a command depends on and what it leaves (R20, R96) -/

/-- The commands that make one step, of either variant, leave `S` one step on. -/
theorem exec_S_of_draw {i : Instr} {s t : State} (h : exec i s = .next t)
    (hi : i = .next64 ∨ i = .fnext64 ∨ i = .next32 ∨ i = .bool ∨ i = .unitdbl) :
    t.S = stateAfter Config.params s.S 1 := by
  have hone : add64 s.S Config.params.c1 = stateAfter Config.params s.S 1 := by
    rw [← add64_stateAfter, stateAfter_zero]
  rcases hi with rfl | rfl | rfl | rfl | rfl <;> cases h <;> exact hone

/-- A command that ends in a condition leaves `S`. -/
theorem ExecCase.S_of_condition {i : Instr} {s t : State} {r : Response} (h : ExecCase i s t)
    (hr : t.activity = .responding r) (hc : r.status ≠ .ok) : t.S = s.S := by
  cases h with
  | completes v ent q _ failed =>
    cases hr
    exact (failed hc).1
  | rejects | waits => rfl

/-- A command that only reads the state leaves `S`. -/
theorem ExecCase.S_of_readOnly {i : Instr} {s t : State} (h : ExecCase i s t)
    (hi : Instr.ReadOnly i) : t.S = s.S :=
  by_contra fun hS => (h.of_S_ne hS).2 hi

/-- Settles O18: a command keeps the rest of the state whatever it is, and of `S` and the entropy
port the ways in which it can go say what changes. -/
theorem commandFrame : Obligations.CommandFrame := by
  intro i s t h
  have hcase := exec_next_cases h
  have hrest := hcase.withRestOf_eq
  refine ⟨?_, ?_, ?_, ?_, ?_, fun rst ready port taken resets => ?_, ?_, hcase.S_of_readOnly,
    fun r _ => hcase.S_of_condition, exec_S_of_draw h⟩
  case refine_6 =>
    exact exec_withRestOf
      { s with rst := rst, rspReady := ready, cmdPort := port, taken := taken, resets := resets } h
  case refine_7 =>
    refine hcase.entPort_cases.imp_right ?_
    rintro ⟨hi, e0, e1, he, -⟩
    exact ⟨hi, e0, e1, he⟩
  all_goals rw [← hrest, State.withRestOf]

/-! ### Commands that do not complete (R114, R143) -/

/-- Settles O19: a command that gives no response has changed nothing, and of the commands that may
wait it is one that still does. -/
theorem unfinishedCommandChangesNothing : Obligations.UnfinishedCommandChangesNothing := by
  intro i s t w ha h hno
  cases exec_next_cases h with
  | completes v ent r => exact absurd rfl (hno r)
  | waits isSeedent few => exact ⟨rfl, .inl ⟨isSeedent, few⟩⟩
  | rejects may notEntropy =>
    obtain ⟨low, bound, hsample⟩ := Instr.samples_of_mayWait may notEntropy
    have hnever : NeverAccepts Config.params s.S bound := by
      refine (exists_firstAccepted_or_neverAccepts ..).resolve_left ?_
      rintro ⟨k, hk⟩
      rw [hsample.exec_of_firstAccepted hk] at h
      injection h with h
      exact hno _ (congrArg State.activity h.symm)
    refine ⟨rfl, .inr ⟨bound, hsample.bound_ne_zero, hnever, ?_⟩⟩
    rcases hsample with ⟨hi, -⟩ | ⟨hi, -⟩ | ⟨max, hi, hlt, hb⟩
    · exact .inl hi
    · exact .inr (.inl hi)
    · exact .inr (.inr ⟨low, max, hi, hlt, hb⟩)

/-- A run goes on from where its first step leads. -/
theorem run_succ_of_core_step {M : Host.Core} {s t : M.State} (h : M.step s = .next t) (k : Nat) :
    M.run (k + 1) s = M.run k t := by
  rw [Host.Core.run, h]

theorem run_succ_of_step {s t : State} (h : step s = .next t) (k : Nat) :
    Host.Core.run Sys2Proof.core (k + 1) s = Host.Core.run Sys2Proof.core k t :=
  run_succ_of_core_step (M := Sys2Proof.core) h k

/-- Where a step changes nothing, no number of steps does. -/
theorem run_of_step_self {s : State} (h : step s = .next s) (k : Nat) :
    Host.Core.run Sys2Proof.core k s = .next s := by
  induction k with
  | zero => rfl
  | succ k ih => rw [run_succ_of_step h, ih]

/-- Settles O44: without its second value a `SEEDENT` has no step; a bounded command's step is its
completion, or the same state again. -/
theorem unansweredCommandsWait : Obligations.UnansweredCommandsWait := by
  refine ⟨fun s w hr ha hdec => ⟨fun hfew => ?waits, fun e0 e1 more he => ?seeds⟩,
    fun s w i low bound hr ha hdec hsample => ?bounded⟩
  case waits =>
    have hnone := blockStep_of_drawUnanswered hr ha ((s.drawUnanswered_iff ha).mpr ⟨hdec, hfew⟩)
    exact ⟨hnone, run_of_step_self (step_of_no_blockStep hnone)⟩
  case seeds =>
    rw [step_of_executing hr ha, execWord_of_decode hdec]
    exact exec_seedent_of_two he
  case bounded =>
    replace hsample : Instr.Samples i low bound := hsample
    rcases exists_firstAccepted_or_neverAccepts Config.params s.S bound with ⟨k, hk⟩ | hnever
    · refine .inl ⟨k, hk, ?_⟩
      rw [step_of_executing hr ha, execWord_of_decode hdec]
      exact hsample.exec_of_firstAccepted hk
    · have hdraw : s.drawUnanswered = false := by
        refine Bool.eq_false_iff.mpr fun hdraw => hsample.ne_seedent ?_
        obtain ⟨hseed, -⟩ := (s.drawUnanswered_iff ha).mp hdraw
        simpa [hdec] using hseed
      have hstep : blockStep s = some (.next s) := by
        rw [blockStep_of_executing hr ha hdraw, execWord_of_decode hdec,
          hsample.exec_of_neverAccepts hnever]
      exact .inr ⟨hnever, hstep, run_of_step_self (step_of_blockStep hstep)⟩

/-! ### The period of the states (R96) -/

/-- The states are an arithmetic progression in the words (R96). -/
theorem stateAfter_eq_add_mul (p : Params) (s : Word) (k : Nat) :
    stateAfter p s k = s + BitVec.ofNat 64 k * p.c1 := by
  apply BitVec.eq_of_toNat_eq
  simp [stateAfter]

/-- An odd constant has an inverse modulo `2^64` (R9). -/
theorem exists_mul_c1_eq_one (p : Params) : ∃ d : Word, d * p.c1 = 1 := by
  have hodd : p.c1.toNat.Coprime (2 ^ 64) := by
    refine (Nat.coprime_two_right.mpr ?_).pow_right 64
    exact ⟨p.c1Top.toNat, p.c1_toNat⟩
  obtain ⟨m, -, hm⟩ := Nat.exists_mul_mod_eq_one_of_coprime hodd (by decide)
  refine ⟨.ofNat 64 m, BitVec.eq_of_toNat_eq ?_⟩
  rw [BitVec.toNat_mul, BitVec.toNat_ofNat, Nat.mod_mul_mod, mul_comm, hm]
  rfl

theorem mixedSteps_eq_stateAfter (p : Params) (vs : List Variant) (s : Word) :
    mixedSteps p vs s = stateAfter p s vs.length := by
  induction vs generalizing s with
  | nil => exact (stateAfter_zero p s).symm
  | cons v vs ih => rw [mixedSteps, ih, stepVariant_fst, stateAfter_add64, List.length_cons]

/-- The number of steps is the distance divided by `C1`, modulo `2^64`. -/
theorem stateAfter_eq_iff {p : Params} {d : Word} (hd : d * p.c1 = 1) (s v : Word) (k : Nat) :
    stateAfter p s k = v ↔ BitVec.ofNat 64 k = (v - s) * d := by
  rw [stateAfter_eq_add_mul]
  constructor
  · rintro rfl
    rw [add_sub_cancel_left, mul_assoc, mul_comm p.c1, hd, mul_one]
  · intro h
    rw [h, mul_assoc, hd, mul_one, add_sub_cancel]

/-- Settles O36: `C1` is invertible, so one number of steps below `2^64` covers each distance. -/
theorem stateSequenceHasFullPeriod : Obligations.StateSequenceHasFullPeriod := by
  intro p
  obtain ⟨d, hd⟩ := exists_mul_c1_eq_one p
  refine ⟨mixedSteps_eq_stateAfter p, fun s v => ?_, fun s => ?_⟩
  · simp only [stateAfter_eq_iff hd]
    refine ⟨((v - s) * d).toNat, ⟨BitVec.isLt _, ?_⟩, fun k ⟨hlt, hk⟩ => ?_⟩
    · rw [BitVec.ofNat_toNat, BitVec.setWidth_eq]
    · rw [← hk, BitVec.toNat_ofNat, Nat.mod_eq_of_lt hlt]
  · rw [stateAfter_eq_add_mul]
    simp

end Sys2Proof.Machine
end

section
/-! SUPPORT. Runs of commands: through the ports of the machine (R45), and by the host's procedures
`SHUFFLE` and `CHOOSEONE` (`44_bounded.md` R146, R150). -/

namespace Sys2Proof.Machine

/-! ### Issuing one command (R45) -/

/-- Settles O20: a run shows the same from states with one `S` and one entropy port. -/
theorem responsesDependOnlyOnStateAndEntropy : Obligations.ResponsesDependOnlyOnStateAndEntropy :=
  fun cmds _ _ hS he => issueAll_runResult_congr cmds hS he

/-- A command that is issued executes on the state that has accepted it, and its response is taken.
-/
theorem issue_eq_some_iff {i : Instr} {s t : State} {r : Response} : issue i s = some (r, t) ↔
    ∃ u, exec i (s.accept (encode i) s.cmdPort) = .next u ∧ u.activity = .responding r ∧
      t = u.takeResponse r := by
  obtain ⟨u, hu, -⟩ := exec_cases i (s.accept (encode i) s.cmdPort)
  simp only [issue, hu, Host.Outcome.next.injEq, exists_eq_left']
  rcases u.activity with _ | w | q
  · simp
  · simp
  · simp only [Option.some.injEq, Prod.mk.injEq, Activity.responding.injEq]
    constructor
    · rintro ⟨rfl, rfl⟩
      exact ⟨rfl, rfl⟩
    · rintro ⟨rfl, rfl⟩
      exact ⟨rfl, rfl⟩

/-- Issuing a command leaves the block idle with the response taken, and the host's inputs alone. -/
theorem issue_frame {i : Instr} {s t : State} {r : Response} (h : issue i s = some (r, t)) :
    t.activity = .idle ∧ t.rst = s.rst ∧ t.rspReady = s.rspReady ∧ t.taken = s.taken ++ [r] := by
  obtain ⟨u, hu, -, rfl⟩ := issue_eq_some_iff.mp h
  obtain ⟨hrst, hready, -, htaken, -⟩ := commandFrame i _ u hu
  exact ⟨rfl, hrst, hready, congrArg (· ++ [r]) htaken⟩

/-- The response has the status that the operands decide. -/
theorem issue_status {i : Instr} {s t : State} {r : Response} (h : issue i s = some (r, t)) :
    r.status = Instr.condition i := by
  obtain ⟨u, hu, hr, -⟩ := issue_eq_some_iff.mp h
  exact exec_status (by simp) hu hr

theorem issueAll_cons_eq_some_iff {i : Instr} {is : List Instr} {s t : State}
    {rs : List Response} : issueAll (i :: is) s = some (rs, t) ↔
      ∃ r u qs, issue i s = some (r, u) ∧ issueAll is u = some (qs, t) ∧ rs = r :: qs := by
  simp only [issueAll_cons, Option.bind_eq_some_iff, Option.map_eq_some_iff, Prod.exists,
    Prod.mk.injEq]
  constructor
  · rintro ⟨r, u, hi, qs, _, hqs, rfl, rfl⟩
    exact ⟨r, u, qs, hi, hqs, rfl⟩
  · rintro ⟨r, u, qs, hi, hqs, rfl⟩
    exact ⟨r, u, hi, qs, t, hqs, rfl, rfl⟩

/-! ### A run through the ports (R36 to R38, R45) -/

/-- The state with other words on the command port. -/
def State.withPort (s : State) (port : List CmdWord) : State := { s with cmdPort := port }

theorem exec_withPort {i : Instr} {s t : State} (h : exec i s = .next t) (port : List CmdWord) :
    exec i (s.withPort port) = .next (t.withPort port) := by
  have hport := exec_withRestOf (s.withPort port) h
  rw [← (exec_next_cases h).withRestOf_eq]
  exact hport

/-- One step executes the offered command, the next one has its response taken. -/
theorem run_issue {i : Instr} {s t : State} {r : Response} (hs : s.Idle)
    (hready : s.rspReady = true) (h : issue i s = some (r, t)) (port : List CmdWord) (k : Nat) :
    Host.Core.run Sys2Proof.core (k + 2) (s.withPort (encode i :: port))
      = Host.Core.run Sys2Proof.core k (t.withPort port) := by
  obtain ⟨u, hu, hr, rfl⟩ := issue_eq_some_iff.mp h
  obtain ⟨hrst, hrsp, -⟩ := commandFrame i _ u hu
  have hexecutes : step (s.withPort (encode i :: port)) = .next (u.withPort port) := by
    have hoffers : (s.withPort (encode i :: port)).Offers (encode i) port := ⟨hs, rfl⟩
    rw [step_of_offers hoffers, execWord_of_decode (decode_encode i)]
    exact exec_withPort hu port
  have htakes : step (u.withPort port) = .next ((u.withPort port).takeResponse r) :=
    step_of_responding_ready (hrst.trans hs.2) hr (hrsp.trans hready)
  rw [run_succ_of_step hexecutes, run_succ_of_step htakes]
  rfl

/-- The words of commands that complete one after another leave the port one after another. -/
theorem run_issueAll (cmds : List Instr) {s t : State} {rs : List Response} (hs : s.Idle)
    (hready : s.rspReady = true) (h : issueAll cmds s = some (rs, t)) (rest : List CmdWord) :
    Host.Core.run Sys2Proof.core (2 * cmds.length) (s.withPort (cmds.map encode ++ rest))
        = .next (t.withPort rest) ∧ t.activity = .idle ∧ t.taken = s.taken ++ rs := by
  induction cmds generalizing s rs with
  | nil =>
    cases h
    exact ⟨rfl, hs.1, (List.append_nil _).symm⟩
  | cons i is ih =>
    obtain ⟨r, u, qs, hi, his, rfl⟩ := issueAll_cons_eq_some_iff.mp h
    obtain ⟨hidle, hrst, hrsp, htaken⟩ := issue_frame hi
    obtain ⟨hrun, hend, hall⟩ := ih ⟨hidle, hrst.trans hs.2⟩ (hrsp.trans hready) his
    refine ⟨(run_issue hs hready hi _ _).trans hrun, hend, ?_⟩
    rw [hall, htaken, List.append_assoc, List.singleton_append]

/-- Settles O21: each command of the list takes two steps of the machine. -/
theorem commandRunIsFold : Obligations.CommandRunIsFold := by
  intro cmds s t rest rs hs hready hc h
  have hrun := run_issueAll cmds hs hready h rest
  rwa [← hc] at hrun

/-! ### Issuing `BOUNDED` and `CHOOSE` (R144, R146) -/

/-- The response of a bounded command whose first accepted draw from `s` is draw `k`. -/
def State.drawResponse (s : State) (bound : Half) (k : Nat) : Response :=
  okResponse (.ofNat 64 (resultAt Config.params s.S bound k).toNat) 0

/-- The state when the response to draw `k` has been taken. -/
def State.afterDraw (s : State) (bound : Half) (k : Nat) : State :=
  { s with
    S := stateAfter Config.params s.S (k + 1)
    activity := .idle
    taken := s.taken ++ [s.drawResponse bound k] }

theorem State.drawResponse_r0_toNat (s : State) (bound : Half) (k : Nat) :
    (s.drawResponse bound k).r0.toNat = (resultAt Config.params s.S bound k).toNat := by
  rw [State.drawResponse, okResponse, ← zext64_eq_ofNat, zext64_toNat]

/-- A command with an index as its result answers the first accepted draw. -/
theorem Instr.Samples.issue_of_firstAccepted {i : Instr} {bound : Half}
    (h : Instr.Samples i 0 bound) {s : State} {k : Nat}
    (hk : FirstAccepted Config.params s.S bound k) :
    issue i s = some (s.drawResponse bound k, s.afterDraw bound k) :=
  issue_eq_some_iff.mpr
    ⟨_, h.exec_index_of_firstAccepted (s := s.accept (encode i) s.cmdPort) hk, rfl, rfl⟩

/-- A command with an index as its result completes at no other draw. -/
theorem Instr.Samples.issue_eq_some {i : Instr} {bound : Half} (h : Instr.Samples i 0 bound)
    {s t : State} {r : Response} (hi : issue i s = some (r, t)) :
    ∃ k, FirstAccepted Config.params s.S bound k ∧ r = s.drawResponse bound k ∧
      t = s.afterDraw bound k := by
  rcases exists_firstAccepted_or_neverAccepts Config.params s.S bound with ⟨k, hk⟩ | hnever
  · rw [h.issue_of_firstAccepted hk] at hi
    cases hi
    exact ⟨k, hk, rfl, rfl⟩
  · obtain ⟨u, hu, hr, -⟩ := issue_eq_some_iff.mp hi
    rw [h.exec_of_neverAccepts (s := s.accept (encode i) s.cmdPort) hnever] at hu
    cases hu
    cases hr

/-- A length that the host may name is a 32-bit operand (R146, R150). -/
theorem ofNat_toNat_of_le_maxCollection {n : Nat} (h : n ≤ maxCollection) :
    (BitVec.ofNat 32 n).toNat = n := by
  rw [maxCollection] at h
  rw [BitVec.toNat_ofNat]
  omega

theorem ofNat_ne_zero_of_le_maxCollection {n : Nat} (h : n ≤ maxCollection) (hn : n ≠ 0) :
    BitVec.ofNat 32 n ≠ 0 :=
  fun hzero => hn ((ofNat_toNat_of_le_maxCollection h).symm.trans (congrArg BitVec.toNat hzero))

/-! ### `SHUFFLE` (R150) -/

/-- The loop of `SHUFFLE` issues its commands and swaps by their results. -/
theorem shuffleFrom_eq_issueAll {α : Type} (k : Nat) {d : List α} (h : k ≤ d.length) (s : State) :
    shuffleFrom k d s = (issueAll (shuffleCommands k) s).map fun x =>
      (swapEach (d.length - k) d (x.1.map fun r => r.r0.toNat), x.2) := by
  induction k generalizing d s with
  | zero => rfl
  | succ k ih =>
    rw [shuffleFrom, shuffleCommands, issueAll_cons]
    rcases issue (.bounded (.ofNat 32 (k + 1))) s with _ | ⟨r, t⟩
    · rfl
    · have hk : k ≤ d.length := Nat.le_of_succ_le h
      have hnext : d.length - k = d.length - (k + 1) + 1 := by omega
      simp only [Option.bind_some, Option.map_map, Function.comp_def, List.map_cons, swapEach]
      rw [ih (by rwa [swapAt_length]), swapAt_length, hnext]

theorem shuffle_eq_some_iff {α : Type} {items d : List α} {s t : State} :
    shuffle items s = some (d, t) ↔ items.length ≤ maxCollection ∧
      ∃ rs, issueAll (shuffleCommands items.length) s = some (rs, t) ∧
        d = swapEach 0 items (rs.map fun r => r.r0.toNat) := by
  rw [shuffle, Option.ite_none_right_eq_some, shuffleFrom_eq_issueAll _ le_rfl, Nat.sub_self]
  simp only [Option.map_eq_some_iff, Prod.exists, Prod.mk.injEq]
  constructor
  · rintro ⟨hlen, rs, _, h, rfl, rfl⟩
    exact ⟨hlen, rs, h, rfl⟩
  · rintro ⟨hlen, rs, h, rfl⟩
    exact ⟨hlen, rs, t, h, rfl, rfl⟩

/-- A shuffle makes one accepted draw per element, besides the rejected ones. -/
theorem ShuffleDraws.eq_stateAfter {p : Params} {L : Nat} {s s' : Word} {ks : List Nat}
    (h : ShuffleDraws p L s ks s') : ks.length = L ∧ s' = stateAfter p s (L + ks.sum) := by
  induction L generalizing s ks with
  | zero =>
    cases ks with
    | nil => exact ⟨rfl, h.trans (stateAfter_zero p s).symm⟩
    | cons => exact h.elim
  | succ L ih =>
    cases ks with
    | nil => exact h.elim
    | cons k ks =>
      obtain ⟨-, hrest⟩ := h
      obtain ⟨hlen, rfl⟩ := ih hrest
      refine ⟨by rw [List.length_cons, hlen], ?_⟩
      rw [stateAfter_stateAfter, List.sum_cons]
      congr 1
      omega

/-- Each command of a shuffle makes the draws up to its first accepted one and answers `OK`. -/
theorem issueAll_shuffleCommands {L : Nat} (hL : L ≤ maxCollection) {s t : State}
    {rs : List Response} (h : issueAll (shuffleCommands L) s = some (rs, t)) :
    (∃ ks, ShuffleDraws Config.params L s.S ks t.S) ∧ rs.length = L ∧ t.taken = s.taken ++ rs ∧
      ∀ r ∈ rs, r.status = .ok := by
  induction L generalizing s rs with
  | zero =>
    cases h
    exact ⟨⟨[], rfl⟩, rfl, (List.append_nil _).symm, fun _ hr => absurd hr List.not_mem_nil⟩
  | succ L ih =>
    obtain ⟨r, u, qs, hi, his, rfl⟩ := issueAll_cons_eq_some_iff.mp h
    have hb := ofNat_ne_zero_of_le_maxCollection hL L.succ_ne_zero
    have hsample : Instr.Samples (.bounded (.ofNat 32 (L + 1))) 0 (.ofNat 32 (L + 1)) :=
      .inl ⟨rfl, hb, rfl⟩
    obtain ⟨k, hk, rfl, rfl⟩ := hsample.issue_eq_some hi
    obtain ⟨⟨ks, hks⟩, hlen, htaken, hok⟩ := ih (Nat.le_of_succ_le hL) his
    refine ⟨⟨k :: ks, hk, hks⟩, by rw [List.length_cons, hlen], ?_, ?_⟩
    · rw [htaken, State.afterDraw, List.append_assoc, List.singleton_append]
    · exact List.forall_mem_cons.mpr ⟨rfl, hok⟩

/-- Settles O59: the loop is its commands and the swaps by their results, and each command makes its
own draws. -/
theorem shuffleIsPermutation : Obligations.ShuffleIsPermutation := by
  refine ⟨fun items d s t => shuffle_eq_some_iff, fun items d s t h => ?_, fun s => rfl⟩
  obtain ⟨hlen, rs, hrun, rfl⟩ := shuffle_eq_some_iff.mp h
  obtain ⟨⟨ks, hks⟩, hrs, htaken, hok⟩ := issueAll_shuffleCommands hlen hrun
  exact ⟨swapEach_perm .., ⟨ks, hks, hks.eq_stateAfter⟩, rs, hrs, htaken, hok⟩

/-! ### `CHOOSEONE` (R63, R146) -/

theorem chooseOne_of_ok {α : Type} {items : List α} {s t : State} {r : Response}
    (hlen : items.length ≤ maxCollection)
    (h : issue (.choose (.ofNat 32 items.length)) s = some (r, t)) (hr : r.status = .ok) :
    chooseOne items s = items[r.r0.toNat]?.map fun x => (.ok x, t) := by
  rw [chooseOne, if_pos hlen, h]
  simp only [hr]

theorem chooseOne_of_emptyCollection {α : Type} {items : List α} {s t : State} {r : Response}
    (hlen : items.length ≤ maxCollection)
    (h : issue (.choose (.ofNat 32 items.length)) s = some (r, t))
    (hr : r.status = .emptyCollection) :
    chooseOne items s = some (.error .emptyCollection, t) := by
  rw [chooseOne, if_pos hlen, h]
  simp only [hr]

theorem exists_issue_of_chooseOne {α : Type} {items : List α} {s : State}
    {y : Except Status α × State} (h : chooseOne items s = some y) :
    items.length ≤ maxCollection ∧
      ∃ r t, issue (.choose (.ofNat 32 items.length)) s = some (r, t) := by
  rw [chooseOne, Option.ite_none_right_eq_some] at h
  obtain ⟨hlen, h⟩ := h
  rcases hi : issue (.choose (.ofNat 32 items.length)) s with _ | ⟨r, t⟩
  · simp [hi] at h
  · exact ⟨hlen, r, t, rfl⟩

/-- `CHOOSE` answers `OK` or `EmptyCollection`. -/
theorem issue_choose_status {b : Half} {s t : State} {r : Response}
    (h : issue (.choose b) s = some (r, t)) : r.status = .ok ∨ r.status = .emptyCollection := by
  rw [issue_status h, Instr.condition]
  split
  · exact .inr rfl
  · exact .inl rfl

/-- `CHOOSEONE` completes when `CHOOSE` does, and reads the element or reports the condition. -/
theorem chooseOne_eq_some_iff {α : Type} {items : List α} {s t : State} {x : Except Status α} :
    chooseOne items s = some (x, t) ↔ items.length ≤ maxCollection ∧
      ∃ r, issue (.choose (.ofNat 32 items.length)) s = some (r, t) ∧
        ((r.status = .ok ∧ ∃ a, items[r.r0.toNat]? = some a ∧ x = .ok a) ∨
          (r.status = .emptyCollection ∧ x = .error .emptyCollection)) := by
  constructor
  · intro h
    obtain ⟨hlen, r, u, hi⟩ := exists_issue_of_chooseOne h
    rcases issue_choose_status hi with hr | hr
    · rw [chooseOne_of_ok hlen hi hr] at h
      obtain ⟨a, ha, hx⟩ := Option.map_eq_some_iff.mp h
      cases hx
      exact ⟨hlen, r, hi, .inl ⟨hr, a, ha, rfl⟩⟩
    · rw [chooseOne_of_emptyCollection hlen hi hr] at h
      cases h
      exact ⟨hlen, r, hi, .inr ⟨hr, rfl⟩⟩
  · rintro ⟨hlen, r, hi, ⟨hr, a, ha, rfl⟩ | ⟨hr, rfl⟩⟩
    · rw [chooseOne_of_ok hlen hi hr, ha]
      rfl
    · exact chooseOne_of_emptyCollection hlen hi hr

/-- The length of a collection that is not empty passes the operand test of `CHOOSE`. -/
theorem samples_choose_length {α : Type} {items : List α} (hne : items ≠ [])
    (hlen : items.length ≤ maxCollection) :
    Instr.Samples (.choose (.ofNat 32 items.length)) 0 (.ofNat 32 items.length) :=
  .inr (.inl ⟨rfl, ofNat_ne_zero_of_le_maxCollection hlen (mt List.length_eq_zero_iff.mp hne), rfl⟩)

theorem resultAt_lt_length {α : Type} {items : List α} (hne : items ≠ [])
    (hlen : items.length ≤ maxCollection) (p : Params) (s : Word) (k : Nat) :
    (resultAt p s (.ofNat 32 items.length) k).toNat < items.length := by
  have hlt := resultAt_lt p s (samples_choose_length hne hlen).bound_ne_zero k
  rwa [BitVec.lt_def, ofNat_toNat_of_le_maxCollection hlen] at hlt

theorem issue_choose_zero (s : State) : ∃ t, issue (.choose 0) s
    = some (conditionResponse .emptyCollection, t) ∧ t.S = s.S :=
  ⟨_, rfl, rfl⟩

/-- Settles O60: `CHOOSE` of a length that is not 0 answers an index of the collection, the result
of its first accepted draw, and of 0 the condition. -/
theorem chooseOneReturnsAnElement : Obligations.ChooseOneReturnsAnElement := by
  refine ⟨fun items s t x => chooseOne_eq_some_iff, fun items s t r hlen h => ?response,
    fun items s k hne hlen hk => ?element, fun s => ?empty⟩
  case response =>
    by_cases hne : items = []
    · subst hne
      obtain ⟨u, hu, hS⟩ := issue_choose_zero s
      cases hu.symm.trans h
      exact .inl ⟨rfl, rfl, hS⟩
    · obtain ⟨k, hk, rfl, rfl⟩ := (samples_choose_length hne hlen).issue_eq_some h
      refine .inr ⟨hne, rfl, ?_, k, hk, s.drawResponse_r0_toNat .., rfl⟩
      rw [State.drawResponse_r0_toNat]
      exact resultAt_lt_length hne hlen ..
  case element =>
    have hi := (samples_choose_length hne hlen).issue_of_firstAccepted hk
    have hget := List.getElem?_eq_getElem (resultAt_lt_length hne hlen Config.params s.S k)
    refine ⟨_, s.afterDraw (.ofNat 32 items.length) k, hget, List.getElem_mem _, ?_, rfl⟩
    rw [chooseOne_of_ok hlen hi rfl, State.drawResponse_r0_toNat, hget]
    rfl
  case empty =>
    obtain ⟨t, ht, hS⟩ := issue_choose_zero s
    exact ⟨t, chooseOne_of_emptyCollection (Nat.zero_le _) ht rfl, hS⟩

end Sys2Proof.Machine
end
